-- ==== Sys2Proof/Word.lean ====
section
/-! DEFINITION. The words of B32CORE: what the spec treats as bits (00_scope.md R9, 41_size.md R78). Lengths, sizes, counts
and positions are numbers below `2^LEN_W` and are `Nat` (R78: no value ever wraps). -/

namespace Sys2Proof

/-- A byte: 8 bits (R9). -/
abbrev Byte := BitVec 8

/-- A symbol's 5-bit value (R12). -/
abbrev Symbol := BitVec 5

/-- One group: 5 raw bytes or 8 symbols, 40 bits (R12). -/
abbrev Group := BitVec 40

/-- A command word: 16 bits (30_encoding.md R56). -/
abbrev CmdWord := BitVec 16

end Sys2Proof
end

