-- ==== Sys2Proof/Syntax.lean ====
section
/-! DEFINITION. The commands of B32CORE, one constructor per row of spec/opcode_table.json (30_encoding.md R62). -/

namespace Sys2Proof

/-- The eight commands. The operands of a command word are its 8-bit immediate IMM, used as is (R59); every other operand
is implicit, in a register (R60). -/
inductive Instr where
  /-- LDCFG: load the built-in configuration numbered IMM[1:0] (R72). -/
  | ldcfg (imm : Byte)
  /-- CLRPAD: `with_padding(None)` (R75). -/
  | clrpad
  /-- SETPAD: `with_padding(Some(b))` (R73). -/
  | setpad (b : Byte)
  /-- ENCSZ: `encoded_size(ARG0)` (R81). -/
  | encsz
  /-- DECSZ: `decoded_size(ARG0)` (R83). -/
  | decsz
  /-- ENC: encode IBUF[0..ARG0) to OBUF (R90). -/
  | enc
  /-- PADD: write the pad bytes only (R103). -/
  | padd
  /-- DEC: decode IBUF[0..ARG0) to OBUF (R107). -/
  | dec
  deriving DecidableEq, Repr

end Sys2Proof
end

