-- ==== Sys2Proof/WellFormed.lean ====
section
/-! DEFINITION. Which terms of `Instr` have an encoding (30_encoding.md R59, R66). -/

namespace Sys2Proof

/-- LDCFG's alphabet number is IMM[1:0] and IMM[7:2] must be 0 (R59); every other operand may have every value. -/
def Instr.wellFormed : Instr → Bool
  | .ldcfg imm => imm.extractLsb' 2 6 == 0#6
  | .clrpad => true
  | .setpad _ => true
  | .encsz => true
  | .decsz => true
  | .enc => true
  | .padd => true
  | .dec => true

end Sys2Proof
end

