-- ==== Sys2Proof/Decode.lean ====
section
/-! DEFINITION. The command word (30_encoding.md R56 to R66): the decoder, total on every value a CMD write can carry, the
opcode table of R62, and the encoder written from the same format (R57). -/

namespace Sys2Proof

/-- Why a CMD value is the illegal command (R66). -/
inductive IllegalWord where
  /-- A bit above bit 15 is set. -/
  | upperPortBits
  /-- OP is 0 or 8 to 15. -/
  | opcode
  /-- Z is not 0. -/
  | zField
  /-- P is 1 where it must be 0. -/
  | padFlag
  /-- IMM, or IMM[7:2] of LDCFG, is not 0 where it must be. -/
  | immediate
  deriving DecidableEq, Repr

/-- OP, bits 15:12 (R57). -/
def wordOp (w : CmdWord) : BitVec 4 := w.extractLsb' 12 4

/-- Z, bits 11:9 (R57). -/
def wordZ (w : CmdWord) : BitVec 3 := w.extractLsb' 9 3

/-- P, bit 8 (R57). -/
def wordP (w : CmdWord) : BitVec 1 := w.extractLsb' 8 1

/-- IMM, bits 7:0 (R57). -/
def wordImm (w : CmdWord) : Byte := w.extractLsb' 0 8

/-- A command with no immediate and no flag (R65): Z, P and IMM must be 0. -/
def decodeBare (i : Instr) (w : CmdWord) : Except IllegalWord Instr :=
  if wordZ w ≠ 0#3 then .error .zField
  else if wordP w ≠ 0#1 then .error .padFlag
  else if wordImm w ≠ 0#8 then .error .immediate
  else .ok i

/-- OP = 1 (R63). -/
def decodeLdcfg (w : CmdWord) : Except IllegalWord Instr :=
  if wordZ w ≠ 0#3 then .error .zField
  else if wordP w ≠ 0#1 then .error .padFlag
  else if (wordImm w).extractLsb' 2 6 ≠ 0#6 then .error .immediate
  else .ok (.ldcfg (wordImm w))

/-- OP = 2: SETPAD with P = 1, CLRPAD with P = 0 and IMM = 0 (R64). -/
def decodePad (w : CmdWord) : Except IllegalWord Instr :=
  if wordZ w ≠ 0#3 then .error .zField
  else if wordP w = 1#1 then .ok (.setpad (wordImm w))
  else if wordImm w ≠ 0#8 then .error .immediate
  else .ok .clrpad

/-- The command of a 16-bit word: by OP first, then by the must-be-zero constraints of its row (R58). -/
def decodeWord (w : CmdWord) : Except IllegalWord Instr :=
  match (wordOp w).toNat with
  | 1 => decodeLdcfg w
  | 2 => decodePad w
  | 3 => decodeBare .encsz w
  | 4 => decodeBare .decsz w
  | 5 => decodeBare .enc w
  | 6 => decodeBare .padd w
  | 7 => decodeBare .dec w
  | _ => .error .opcode

/-- The command of the value a CMD write carries: bits above bit 15 must be 0 (R23, R57, R66). -/
def decodePort (v : Nat) : Except IllegalWord Instr :=
  if v < 2 ^ 16 then decodeWord (BitVec.ofNat 16 v) else .error .upperPortBits

/-- The format of R57, from OP, P and IMM, with Z = 0. -/
def makeWord (op : BitVec 4) (p : BitVec 1) (imm : Byte) : CmdWord :=
  op ++ (0#3 ++ (p ++ imm))

/-- The word of a well-formed instruction (R62 to R65). -/
def encode : Instr → CmdWord
  | .ldcfg imm => makeWord 1#4 0#1 imm
  | .clrpad => makeWord 2#4 0#1 0#8
  | .setpad b => makeWord 2#4 1#1 b
  | .encsz => makeWord 3#4 0#1 0#8
  | .decsz => makeWord 4#4 0#1 0#8
  | .enc => makeWord 5#4 0#1 0#8
  | .padd => makeWord 6#4 0#1 0#8
  | .dec => makeWord 7#4 0#1 0#8

/-- One row of the opcode table of R62: a word `w` is the row's command iff `w &&& mask = pattern`. -/
structure OpcodeRow where
  mnemonic : String
  pattern : CmdWord
  mask : CmdWord
  deriving DecidableEq, Repr

/-- The complete command set (R62). -/
def opcodeTable : List OpcodeRow :=
  [⟨"LDCFG", 0x1000#16, 0xFFFC#16⟩,
   ⟨"CLRPAD", 0x2000#16, 0xFFFF#16⟩,
   ⟨"SETPAD", 0x2100#16, 0xFF00#16⟩,
   ⟨"ENCSZ", 0x3000#16, 0xFFFF#16⟩,
   ⟨"DECSZ", 0x4000#16, 0xFFFF#16⟩,
   ⟨"ENC", 0x5000#16, 0xFFFF#16⟩,
   ⟨"PADD", 0x6000#16, 0xFFFF#16⟩,
   ⟨"DEC", 0x7000#16, 0xFFFF#16⟩]

/-- A word matches a row of R62. -/
def OpcodeRow.accepts (r : OpcodeRow) (w : CmdWord) : Bool := w &&& r.mask == r.pattern

/-- The row of an instruction in the opcode table. -/
def instrMnemonic : Instr → String
  | .ldcfg _ => "LDCFG"
  | .clrpad => "CLRPAD"
  | .setpad _ => "SETPAD"
  | .encsz => "ENCSZ"
  | .decsz => "DECSZ"
  | .enc => "ENC"
  | .padd => "PADD"
  | .dec => "DEC"

/-- The instruction the decoder reads from a word whose bits are `w`, numbered as spec/opcode_table.json numbers them; bits
from `nbits` up are 0. -/
def decodeTableWord (nbits w : Nat) : Option Instr :=
  match decodePort (w % 2 ^ nbits) with
  | .ok i => some i
  | .error _ => none

end Sys2Proof
end

