-- ==== Sys2Proof/Config.lean ====
section
/-! DEFINITION. What one implementation of B32CORE fixes: the parameters of 00_scope.md R7 and their constraints, the names
of the four alphabets, and the values the spec leaves open, as constants without a body (log 3, log 4). -/

namespace Sys2Proof

/-- The closed set of alphabets (40_config.md R71, 10_state.md R30). -/
inductive Alphabet where
  | standard | extendedHex | crockford | zBase32
  deriving DecidableEq, Repr

/-- The parameters of R7. They are constant data of a machine: no step writes them (log 1). BATCH is not here: it has no
effect on any specified value (R8); the staged engines of Machine/Stages.lean take it as an argument (log 7). -/
structure Params where
  /-- LEN_W: the width of every length, size, count and position. -/
  lenW : Nat
  /-- IBUF_SIZE. -/
  ibufSize : Nat
  /-- OBUF_SIZE. -/
  obufSize : Nat
  /-- SYM[0]. -/
  symStandard : Vector Byte 32
  /-- SYM[1]. -/
  symExtendedHex : Vector Byte 32
  /-- SYM[2]. -/
  symCrockford : Vector Byte 32
  /-- SYM[3]. -/
  symZBase32 : Vector Byte 32
  /-- INVALID: the sentinel of the inverse tables. -/
  invalid : Byte
  deriving DecidableEq, Repr

/-- SYM[a] as a whole table. -/
def Params.symTable (p : Params) : Alphabet → Vector Byte 32
  | .standard => p.symStandard
  | .extendedHex => p.symExtendedHex
  | .crockford => p.symCrockford
  | .zBase32 => p.symZBase32

/-- The symbol table invariant (10_state.md R31): 32 distinct ASCII bytes. -/
abbrev symTableWf (t : Vector Byte 32) : Prop :=
  (∀ b ∈ t.toList, b < 0x80#8) ∧ t.toList.Nodup

/-- The constraints R7 puts on the parameters, and what LDCFG takes of the tables: the pad byte 0x3D of the two built-in padded
configurations is none of their symbols (40_config.md R72, 10_state.md R26; log 15). -/
abbrev Params.wf (p : Params) : Prop :=
  16 ≤ p.lenW ∧
  (1 ≤ p.ibufSize ∧ p.ibufSize ≤ 2 ^ p.lenW - 1) ∧
  (1 ≤ p.obufSize ∧ p.obufSize ≤ 2 ^ p.lenW - 1) ∧
  (symTableWf p.symStandard ∧ symTableWf p.symExtendedHex ∧ symTableWf p.symCrockford ∧ symTableWf p.symZBase32) ∧
  (0x3D#8 ∉ p.symStandard.toList ∧ 0x3D#8 ∉ p.symExtendedHex.toList) ∧
  32 ≤ p.invalid.toNat

/-- FREE VALUE. The byte at an index of IBUF that nothing has written since reset number `epoch` (R38, R153, U6; log 3). -/
opaque Config.ibufFill : (epoch index : Nat) → Byte

/-- FREE VALUE. The byte at an index of OBUF that nothing has written since reset number `epoch` (R38, R153, U6; log 3). -/
opaque Config.obufFill : (epoch index : Nat) → Byte

/-- FREE VALUE. The byte a DEC leaves at an index of OBUF that 43_decode.md R125 calls unspecified, for the command that made
draw number `draw` (U4, U5; log 4). -/
opaque Config.decSlack : (draw index : Nat) → Byte

/-- FREE VALUE. The CODE and FCAUSE bits a STATUS read returns while BUSY: FCAUSE is its bits 5:2 and CODE its bits 1:0
(70_reset_and_hazards.md R159, U10; log 4). -/
opaque Config.busyStatusBits : (draw : Nat) → BitVec 6

end Sys2Proof
end

