-- ==== Sys2Proof/Machine/Rom.lean ====
section
/-! DEFINITION. The ROMs: the default symbol tables (10_state.md R33 to R36), the symbol lookup, and the inverse table, which
R32 determines from the symbol table; the alphabet numbers (30_encoding.md R59). -/

namespace Sys2Proof.Machine

/-- The alphabet a 2-bit number names: 0 Standard, 1 ExtendedHex, 2 Crockford, 3 ZBase32 (R59, R25). -/
def alphabetOfBits (b : BitVec 2) : Alphabet :=
  if b = 0#2 then .standard else if b = 1#2 then .extendedHex else if b = 2#2 then .crockford else .zBase32

/-- The number of an alphabet in CFG.ALPHA (R25). -/
def alphabetBits : Alphabet → BitVec 2
  | .standard => 0#2
  | .extendedHex => 1#2
  | .crockford => 2#2
  | .zBase32 => 3#2

/-- SYM[0], `ABCDEFGHIJKLMNOPQRSTUVWXYZ234567` (R33). -/
def defaultStandard : Vector Byte 32 :=
  #v[0x41, 0x42, 0x43, 0x44, 0x45, 0x46, 0x47, 0x48, 0x49, 0x4A, 0x4B, 0x4C, 0x4D, 0x4E, 0x4F, 0x50,
     0x51, 0x52, 0x53, 0x54, 0x55, 0x56, 0x57, 0x58, 0x59, 0x5A, 0x32, 0x33, 0x34, 0x35, 0x36, 0x37]

/-- SYM[1], `0123456789ABCDEFGHIJKLMNOPQRSTUV` (R34). -/
def defaultExtendedHex : Vector Byte 32 :=
  #v[0x30, 0x31, 0x32, 0x33, 0x34, 0x35, 0x36, 0x37, 0x38, 0x39, 0x41, 0x42, 0x43, 0x44, 0x45, 0x46,
     0x47, 0x48, 0x49, 0x4A, 0x4B, 0x4C, 0x4D, 0x4E, 0x4F, 0x50, 0x51, 0x52, 0x53, 0x54, 0x55, 0x56]

/-- SYM[2], `0123456789ABCDEFGHJKMNPQRSTVWXYZ` (R35; the order of the unpinned entries: log 14). -/
def defaultCrockford : Vector Byte 32 :=
  #v[0x30, 0x31, 0x32, 0x33, 0x34, 0x35, 0x36, 0x37, 0x38, 0x39, 0x41, 0x42, 0x43, 0x44, 0x45, 0x46,
     0x47, 0x48, 0x4A, 0x4B, 0x4D, 0x4E, 0x50, 0x51, 0x52, 0x53, 0x54, 0x56, 0x57, 0x58, 0x59, 0x5A]

/-- SYM[3], `ybndrfg8ejkmcpqxot1uwisza345h769` (R36; the unpinned entries: log 14). -/
def defaultZBase32 : Vector Byte 32 :=
  #v[0x79, 0x62, 0x6E, 0x64, 0x72, 0x66, 0x67, 0x38, 0x65, 0x6A, 0x6B, 0x6D, 0x63, 0x70, 0x71, 0x78,
     0x6F, 0x74, 0x31, 0x75, 0x77, 0x69, 0x73, 0x7A, 0x61, 0x33, 0x34, 0x35, 0x68, 0x37, 0x36, 0x39]

/-- The defaults of R7. -/
def defaultParams : Params where
  lenW := 32
  ibufSize := 4096
  obufSize := 8192
  symStandard := defaultStandard
  symExtendedHex := defaultExtendedHex
  symCrockford := defaultCrockford
  symZBase32 := defaultZBase32
  invalid := 0xFF#8

/-- SYM[a][v]: the symbol ROM read (00_scope.md R10, 10_state.md R30). -/
def symEntry (p : Params) (a : Alphabet) (v : Symbol) : Byte :=
  (p.symTable a)[v.toNat]'v.isLt

/-- INV[a][b]: the inverse ROM read, a value 0..31 or INVALID (10_state.md R32). -/
def invEntry (p : Params) (a : Alphabet) (b : Byte) : Byte :=
  let i := (p.symTable a).toList.idxOf b
  if i < 32 then BitVec.ofNat 8 i else p.invalid

/-- The 5-bit value of byte `b` in alphabet `a`, none where INV[a][b] = INVALID: the test every consumed byte gets (43_decode.md
R111). -/
def invLookup (p : Params) (a : Alphabet) (b : Byte) : Option Symbol :=
  if invEntry p a b = p.invalid then none else some ((invEntry p a b).setWidth 5)

end Sys2Proof.Machine
end

