-- ==== Sys2Proof/Machine/State.lean ====
section
/-! DEFINITION. The state of B32CORE (10_state.md R13), the reasons a step can stop, and the state right after reset (R38). -/

namespace Sys2Proof.Machine

/-- The fatal causes of STATUS.FCAUSE (60_exceptions.md R131). -/
inductive FCause where
  | overflow | outTooSmall | outOverrun | config | illegalCmd | bufRange
  deriving DecidableEq, Repr

/-- The completion codes of STATUS.CODE; the value 3 is never produced (60_exceptions.md R130). -/
inductive Code where
  | ok | errLength | errByte
  deriving DecidableEq, Repr

/-- PHASE (10_state.md R21). -/
inductive Phase where
  /-- IDLE: accepts a command. -/
  | idle
  /-- BUSY: executing the command of the accepted CMD value `word`. `window` is the model's own: how many of the next port
  events arrive before the command has ended (log 5). -/
  | busy (word window : Nat)
  /-- HALTED: a fatal fault has occurred; STATUS.FCAUSE is `cause`. -/
  | halted (cause : FCause)
  deriving DecidableEq, Repr

/-- What the host, or the reset signal, does to the block next (00_scope.md R11; 70_reset_and_hazards.md R166). -/
inductive PortEvent where
  /-- WR CMD, `v`: a command whose next `window` port events arrive before it has ended (log 5). -/
  | command (v window : Nat)
  /-- WR of the register with this index; index 0 is WR CMD with no window. -/
  | writeReg (index v : Nat)
  /-- RD of the register with this index. -/
  | readReg (index : Nat)
  /-- IB[i] <- b. -/
  | writeIbuf (i : Nat) (b : Byte)
  /-- Read of IB[i]. -/
  | readIbuf (i : Nat)
  /-- OB[j] <- b. -/
  | writeObuf (j : Nat) (b : Byte)
  /-- Read of OB[j]. -/
  | readObuf (j : Nat)
  /-- The reset input (70_reset_and_hazards.md R151). -/
  | reset
  deriving DecidableEq, Repr

/-- A byte memory: (index, byte) pairs with indices strictly rising. An index it does not list holds no value of its own;
what a read of it gives is a free value (`ibufByte`, `obufByte` of Machine/Ops.lean; log 3). -/
abbrev Memory := List Host.Cell

/-- The whole state. Lengths, sizes, counts and positions are LEN_W-bit unsigned numbers (41_size.md R78). -/
structure State where
  /-- The parameters of 00_scope.md R7: constant, no step writes them. -/
  par : Params
  /-- PHASE, with STATUS.BUSY, STATUS.FATAL and STATUS.FCAUSE (R21, R24). -/
  phase : Phase
  /-- STATUS.CODE (R24). -/
  code : Code
  /-- CFG (R25). -/
  cfg : BitVec 11
  /-- ARG0 (R15). -/
  arg0 : Nat
  /-- ARG1 (R16). -/
  arg1 : Nat
  /-- RES (R17). -/
  res : Nat
  /-- ERRPOS (R18). -/
  errpos : Nat
  /-- ERRBYTE (R19). -/
  errbyte : Byte
  /-- IBUF (R27). -/
  ibuf : Memory
  /-- OBUF (R28). -/
  obuf : Memory
  /-- THE MODEL'S OWN: the port events still to come (log 2). -/
  port : List PortEvent
  /-- THE MODEL'S OWN: the value the port returned to the last event, none where it returned none (log 2). -/
  rdata : Option Nat
  /-- THE MODEL'S OWN: which reset the unlisted bytes of the buffers date from (log 3). -/
  epoch : Nat
  /-- THE MODEL'S OWN: the number of free draws made so far (log 4). -/
  draws : Nat
  deriving DecidableEq, Repr

/-- Why the machine stops. No command ends so: the block's own fatal faults are next states in PHASE HALTED (R139). -/
inductive Fault where
  /-- Raised by `State.busyEvent`: a host access other than a read of STATUS arrives while BUSY, for which the spec has no move
  (70_reset_and_hazards.md R159, R166). Safe: the model stops where the hardware does something the spec does not say. -/
  | accessWhileBusy
  deriving DecidableEq, Repr

/-- Why an instruction has no meaning. -/
inductive Refusal where
  /-- Raised by an arm of `exec` whose instruction is not modelled yet; no arm is. Safe. -/
  | notModelled (mnemonic : String)
  deriving DecidableEq, Repr

/-- The state right after reset (R38), with the default parameters (R7) and no port event to come. -/
def State.reset : State where
  par := defaultParams
  phase := .idle
  code := .ok
  cfg := 0x13D#11
  arg0 := 0
  arg1 := 0
  res := 0
  errpos := 0
  errbyte := 0#8
  ibuf := []
  obuf := []
  port := []
  rdata := none
  epoch := 0
  draws := 0

end Sys2Proof.Machine
end

