-- ==== Sys2Proof/Machine/Ops.lean ====
section
/-! DEFINITION. The named operations over the buffers and the registers, the start of a command, and its three ends:
`done`, `raise Error` and `raise Fatal` (60_exceptions.md R134 to R139); the reset event. -/

namespace Sys2Proof.Machine

/-- The byte a memory lists at an index, none where it lists none. -/
def Memory.read : Memory → Nat → Option Byte
  | [], _ => none
  | (a, b) :: m, x => if x = a then some b else Memory.read m x

/-- The memory with byte `v` at index `x`, the list kept in rising order. -/
def Memory.write : Memory → Nat → Byte → Memory
  | [], x, v => [(x, v)]
  | (a, b) :: m, x, v =>
    if x < a then (x, v) :: (a, b) :: m
    else if x = a then (x, v) :: m
    else (a, b) :: Memory.write m x v

/-- The memory with byte `f j` at every index `j` with `start ≤ j < start + count`. -/
def Memory.writeRange (m : Memory) (f : Nat → Byte) (start : Nat) : Nat → Memory
  | 0 => m
  | count + 1 => Memory.write (Memory.writeRange m f start count) (start + count) (f (start + count))

/-- The canonical form: indices strictly rising. An unlisted index holds no value of its own, so no entry can equal it. -/
abbrev Memory.wf (m : Memory) : Prop := m.Pairwise (fun c d => c.1 < d.1)

/-- Every listed index is an index of a buffer of `size` bytes. -/
abbrev Memory.below (m : Memory) (size : Nat) : Prop := ∀ c ∈ m, c.1 < size

/-- IBUF[i] (10_state.md R27); where nothing has written it since reset, a free value (R153; log 3). -/
def ibufByte (s : State) (i : Nat) : Byte :=
  (Memory.read s.ibuf i).getD (Config.ibufFill s.epoch i)

/-- OBUF[j] (10_state.md R28); where nothing has written it since reset, a free value (R153; log 3). -/
def obufByte (s : State) (j : Nat) : Byte :=
  (Memory.read s.obuf j).getD (Config.obufFill s.epoch j)

/-- CFG.PAD (10_state.md R25). -/
def cfgPad (c : BitVec 11) : Byte := c.extractLsb' 0 8

/-- CFG.PE (R25). -/
def cfgPE (c : BitVec 11) : Bool := c.extractLsb' 8 1 == 1#1

/-- CFG.ALPHA (R25). -/
def cfgAlpha (c : BitVec 11) : Alphabet := alphabetOfBits (c.extractLsb' 9 2)

/-- The configuration's `pad : Option<byte>` (R25). -/
def cfgPadOption (c : BitVec 11) : Option Byte := if cfgPE c then some (cfgPad c) else none

/-- CFG[8:0], PE and PAD, of an optional pad byte; PAD is 0x00 where there is none (R25, R26). -/
def padBits : Option Byte → BitVec 9
  | some p => 1#1 ++ p
  | none => 0#9

/-- The CFG value of an alphabet and an optional pad byte (R25). -/
def makeCfg (a : Alphabet) (pad : Option Byte) : BitVec 11 := alphabetBits a ++ padBits pad

/-- The CFG invariant (R26): no pad byte means PAD = 0x00, and a pad byte is no symbol of the alphabet. -/
abbrev cfgLegal (p : Params) (c : BitVec 11) : Prop :=
  (cfgPE c = false → cfgPad c = 0#8) ∧
  (cfgPE c = true → invEntry p (cfgAlpha c) (cfgPad c) = p.invalid)

/-- The value a LEN_W-bit port or register carries of `v` (10_state.md R20). -/
def lenBits (s : State) (v : Nat) : Nat := v % 2 ^ s.par.lenW

/-- `CFG <- c` (40_config.md R72, R73, R75). -/
def State.setCfg (s : State) (c : BitVec 11) : State := { s with cfg := c }

/-- `OBUF[j] <- f j` for `start ≤ j < start + count`. -/
def State.writeObuf (s : State) (f : Nat → Byte) (start count : Nat) : State :=
  { s with obuf := Memory.writeRange s.obuf f start count }

/-- OBUF[start .. stop-1] becomes unspecified: a fresh free value for each byte (43_decode.md R125; log 4). -/
def State.clobberObuf (s : State) (start stop : Nat) : State :=
  { s with
    obuf := Memory.writeRange s.obuf (Config.decSlack s.draws) start (stop - start)
    draws := s.draws + 1 }

/-- The start of a command, up to its decoding (60_exceptions.md R134). -/
def State.startCommand (s : State) (word window : Nat) : State :=
  { s with phase := .busy word window, code := .ok, res := 0, errpos := 0, errbyte := 0#8 }

/-- `done(v)`: the successful end (R135). ERRPOS and ERRBYTE, cleared at the start, are 0. -/
def State.done (s : State) (v : Nat) : State :=
  { s with phase := .idle, code := .ok, res := v, errpos := 0, errbyte := 0#8 }

/-- `raise Error(code, pos, byte)`: the recoverable end (R136). -/
def State.raiseError (s : State) (c : Code) (pos : Nat) (b : Byte) : State :=
  { s with phase := .idle, code := c, res := 0, errpos := pos, errbyte := b }

/-- `raise Fatal(cause)`: the block halts (R139). The one exception this machine takes: it saves the cause, clears the
results, and only reset leads out of HALTED. -/
def State.raiseFatal (s : State) (cause : FCause) : State :=
  { s with phase := .halted cause, code := .ok, res := 0, errpos := 0, errbyte := 0#8 }

/-- The reset event (70_reset_and_hazards.md R151 to R153): the reset state of R38 in every phase. The parameters and the
pending port events are outside the block and stay; every byte of both buffers is drawn afresh (log 3). -/
def State.resetEvent (s : State) : State :=
  { State.reset with
    par := s.par
    port := s.port
    rdata := none
    epoch := s.draws + 1
    draws := s.draws + 1 }

end Sys2Proof.Machine
end

