-- ==== Sys2Proof/Machine/Operands.lean ====
section
/-! DEFINITION. The operands of the commands: LDCFG's immediate (30_encoding.md R59), the implicit operands of the data commands
(R60), and the range check on the two declared lengths (60_exceptions.md R143). -/

namespace Sys2Proof.Machine

/-- LDCFG's operand: the alphabet number is IMM[1:0] (R59). -/
def immAlphabet (imm : Byte) : Alphabet := alphabetOfBits (imm.extractLsb' 0 2)

/-- The pad byte of a built-in configuration: `=` for Standard and ExtendedHex, none for Crockford and ZBase32 (40_config.md
R72). -/
def builtInPad : Alphabet → Option Byte
  | .standard => some 0x3D#8
  | .extendedHex => some 0x3D#8
  | .crockford => none
  | .zBase32 => none

/-- SYM[CFG.ALPHA], what ENC looks symbols up in (R60). -/
def stateSym (s : State) (v : Symbol) : Byte := symEntry s.par (cfgAlpha s.cfg) v

/-- INV[CFG.ALPHA], what DEC and SETPAD look bytes up in (R60). -/
def stateInv (s : State) (b : Byte) : Option Symbol := invLookup s.par (cfgAlpha s.cfg) b

/-- The declared output slice is no larger than OBUF (R143): the check of PADD. -/
def outputInRange (s : State) : Bool := decide (s.arg1 ≤ s.par.obufSize)

/-- Both declared slices are no larger than their buffers (R143): the check of ENC and DEC. -/
def slicesInRange (s : State) : Bool := decide (s.arg0 ≤ s.par.ibufSize) && outputInRange s

end Sys2Proof.Machine
end

