-- ==== Sys2Proof/Machine/ConfigCommands.lean ====
section
/-! DEFINITION. The configuration commands LDCFG, SETPAD and CLRPAD, the only writers of CFG (40_config.md R71). -/

namespace Sys2Proof.Machine

/-- LDCFG (R72): the whole built-in configuration, its pad byte included. -/
def execLdcfg (imm : Byte) (s : State) : Host.Outcome State Fault Refusal :=
  .next ((s.setCfg (makeCfg (immAlphabet imm) (builtInPad (immAlphabet imm)))).done 0)

/-- SETPAD (R73): F_CONFIG where the byte is a symbol of the selected alphabet (R74), else the pad byte is installed. -/
def execSetpad (b : Byte) (s : State) : Host.Outcome State Fault Refusal :=
  if stateInv s b ≠ none then .next (s.raiseFatal .config)
  else .next ((s.setCfg (makeCfg (cfgAlpha s.cfg) (some b))).done 0)

/-- CLRPAD (R75). -/
def execClrpad (s : State) : Host.Outcome State Fault Refusal :=
  .next ((s.setCfg (makeCfg (cfgAlpha s.cfg) none)).done 0)

end Sys2Proof.Machine
end

