-- ==== Sys2Proof/Machine/Size.lean ====
section
/-! DEFINITION. The Size Calculator (41_size.md R78 to R83): two partial functions, and the commands ENCSZ and DECSZ. `none` is
the overflow that ends a command with F_OVERFLOW (R79). -/

namespace Sys2Proof.Machine

/-- `checked_add_W` (R79): the exact sum if it is below `2^LEN_W`. -/
def checkedAdd (w a b : Nat) : Option Nat := if a + b < 2 ^ w then some (a + b) else none

/-- `checked_mul_W` (R79): the exact product if it is below `2^LEN_W`. -/
def checkedMul (w a b : Nat) : Option Nat := if a * b < 2 ^ w then some (a * b) else none

/-- `encoded_size(pe, n)` (R80), every intermediate checked in the order written. -/
def encodedSize (w : Nat) (pe : Bool) (n : Nat) : Option Nat :=
  if pe then
    match checkedAdd w n 4 with
    | none => none
    | some t1 => checkedMul w (t1 / 5) 8
  else
    match checkedMul w n 8 with
    | none => none
    | some t1 =>
      match checkedAdd w t1 4 with
      | none => none
      | some t2 => some (t2 / 5)

/-- `decoded_size(pe, m)` (R82). -/
def decodedSize (w : Nat) (pe : Bool) (m : Nat) : Option Nat :=
  if pe then checkedMul w (m / 8) 5
  else
    match checkedMul w m 5 with
    | none => none
    | some t1 => some (t1 / 8)

/-- `encoded_size` of ARG0 under CFG (R81). -/
def stateEncodedSize (s : State) : Option Nat := encodedSize s.par.lenW (cfgPE s.cfg) s.arg0

/-- `decoded_size` of ARG0 under CFG (R83). -/
def stateDecodedSize (s : State) : Option Nat := decodedSize s.par.lenW (cfgPE s.cfg) s.arg0

/-- A size is the command's result, an overflow its fatal end (R81, R83, R87). -/
def finishSize (r : Option Nat) (s : State) : State :=
  match r with
  | none => s.raiseFatal .overflow
  | some v => s.done v

/-- ENCSZ (R81). -/
def execEncsz (s : State) : Host.Outcome State Fault Refusal := .next (finishSize (stateEncodedSize s) s)

/-- DECSZ (R83). -/
def execDecsz (s : State) : Host.Outcome State Fault Refusal := .next (finishSize (stateDecodedSize s) s)

end Sys2Proof.Machine
end

