-- ==== Sys2Proof/Machine/DecodeText.lean ====
section
/-! DEFINITION. base32_decoder (43_decode.md): length validation, inverse lookup, unpacking and the tail, as functions of the
index in the text, and the command DEC. `T` is what the text holds at each index, `m` its length. -/

namespace Sys2Proof.Machine

/-- A number of symbols no encoding leaves in its last chunk: 1, 3 or 6 (R109, R119). -/
def badSymbolCount (k : Nat) : Bool := k == 1 || k == 3 || k == 6

/-- The tail's length: the final at most 8 bytes (R110). -/
def tailLength (m : Nat) : Nat := if m = 0 then 0 else (m - 1) % 8 + 1

/-- The number of body chunks (R110). -/
def bodyChunks (m : Nat) : Nat := (m - tailLength m) / 8

/-- The number of tail bytes before the first pad byte of the tail (R115); the whole tail where it holds none, or where the
configuration has no pad byte. -/
def tailStop (pad : Option Byte) (T : Nat → Byte) (m : Nat) : Nat :=
  ((List.range (tailLength m)).find? (fun k => pad == some (T (8 * bodyChunks m + k)))).getD (tailLength m)

/-- The bytes before the point where consumption ends: the body, and the tail up to its first pad byte (R115, R117). -/
def consumedLength (pad : Option Byte) (T : Nat → Byte) (m : Nat) : Nat := 8 * bodyChunks m + tailStop pad T m

/-- The lowest index below `len` whose byte is not in the alphabet (R111). -/
def firstInvalid (inv : Byte → Option Symbol) (T : Nat → Byte) (len : Nat) : Option Nat :=
  (List.range len).find? (fun i => (inv (T i)).isNone)

/-- The 5 bits the byte at index `i` contributes; 0 where it is not consumed (R112, R116). -/
def symbolValue (inv : Byte → Option Symbol) (T : Nat → Byte) (len i : Nat) : Symbol :=
  if i < len then (inv (T i)).getD 0#5 else 0#5

/-- The 40-bit value of chunk `j`, its first symbol most significant (R112, R116). -/
def chunkValue (inv : Byte → Option Symbol) (T : Nat → Byte) (len j : Nat) : Group :=
  symbolValue inv T len (8 * j) ++ symbolValue inv T len (8 * j + 1) ++ symbolValue inv T len (8 * j + 2)
    ++ symbolValue inv T len (8 * j + 3) ++ symbolValue inv T len (8 * j + 4) ++ symbolValue inv T len (8 * j + 5)
    ++ symbolValue inv T len (8 * j + 6) ++ symbolValue inv T len (8 * j + 7)

/-- Byte `i` of a 40-bit value, `V[39-8i : 32-8i]` (R112). -/
def byteOf (V : Group) (i : Nat) : Byte := V.extractLsb' (32 - 8 * i) 8

/-- Byte `j` of the decoded data: byte `j mod 5` of chunk `j / 5` (R112, R116). -/
def decodedByte (inv : Byte → Option Symbol) (T : Nat → Byte) (len j : Nat) : Byte :=
  byteOf (chunkValue inv T len (j / 5)) (j % 5)

/-- The whole bytes that `ns` symbols of the tail give (R118). -/
def tailBytes (ns : Nat) : Nat :=
  match ns with
  | 2 => 1
  | 4 => 2
  | 5 => 3
  | 7 => 4
  | 8 => 5
  | _ => 0

/-- The symbols of the tail of state `s` (R115). -/
def decTailSymbols (s : State) : Nat := tailStop (cfgPadOption s.cfg) (ibufByte s) s.arg0

/-- The bytes of the text DEC consumes from state `s` (R115, R117). -/
def decConsumed (s : State) : Nat := consumedLength (cfgPadOption s.cfg) (ibufByte s) s.arg0

/-- The position DEC reports as invalid, if any (R111). -/
def decInvalid (s : State) : Option Nat := firstInvalid (stateInv s) (ibufByte s) (decConsumed s)

/-- The count DEC returns where it succeeds (R121). -/
def decCount (s : State) : Nat := 5 * bodyChunks s.arg0 + tailBytes (decTailSymbols s)

/-- Byte `j` of what DEC decodes from state `s`. -/
def decByte (s : State) (j : Nat) : Byte := decodedByte (stateInv s) (ibufByte s) (decConsumed s) j

/-- OBUF[0 .. ARG1-1] is unspecified after an error met while the text is consumed (R125 (c); log 4). -/
def clobberOutput (s : State) : State := s.clobberObuf 0 s.arg1

/-- The successful end: the decoded bytes in OBUF[0 .. RES-1], OBUF[RES .. ARG1-1] unspecified (R125 (a); log 4). Nothing is
written for the empty text (R107; log 9). -/
def finishDec (s : State) : State :=
  if s.arg0 = 0 then s.done 0
  else ((s.clobberObuf (decCount s) s.arg1).writeObuf (decByte s) 0 (decCount s)).done (decCount s)

/-- DEC once its contract checks and its length check have passed (R123 steps 5 to 8). -/
def consumeText (s : State) : State :=
  match decInvalid s with
  | some pos => (clobberOutput s).raiseError .errByte pos (ibufByte s pos)
  | none =>
    if badSymbolCount (decTailSymbols s) then (clobberOutput s).raiseError .errLength 0 0#8
    else if s.arg1 < decCount s then (clobberOutput s).raiseFatal .outOverrun
    else finishDec s

/-- DEC (R107): the checks of R123 in their order. -/
def execDec (s : State) : Host.Outcome State Fault Refusal :=
  if slicesInRange s = false then .next (s.raiseFatal .bufRange)
  else match stateDecodedSize s with
    | none => .next (s.raiseFatal .overflow)
    | some size =>
      if s.arg1 < size then .next (s.raiseFatal .outTooSmall)
      else if badSymbolCount (s.arg0 % 8) then .next (s.raiseError .errLength 0 0#8)
      else .next (consumeText s)

end Sys2Proof.Machine
end

