-- ==== Sys2Proof/Machine/Encode.lean ====
section
/-! DEFINITION. base32_encoder (42_encode.md): packing, lookup and padding as functions of the index in the text, and the
commands ENC and PADD. The text `T` is what the input holds at each index, `n` its length. -/

namespace Sys2Proof.Machine

/-- The byte at index `i` of the input, 0 where a partial group has none (R95). -/
def groupByte (T : Nat → Byte) (n i : Nat) : Byte := if i < n then T i else 0#8

/-- The 40-bit value of group `g`, the byte of lowest index most significant (R92, R95; 20_memory.md R41). -/
def groupValue (T : Nat → Byte) (n g : Nat) : Group :=
  groupByte T n (5 * g) ++ groupByte T n (5 * g + 1) ++ groupByte T n (5 * g + 2) ++ groupByte T n (5 * g + 3)
    ++ groupByte T n (5 * g + 4)

/-- Symbol `k` of a group, `V[39-5k : 35-5k]` (R93; 20_memory.md R42). -/
def symbolOf (V : Group) (k : Nat) : Symbol := V.extractLsb' (35 - 5 * k) 5

/-- The symbols a remainder of `r` bytes emits: 0, 2, 4, 5, 7 (R96). -/
def remainderSymbols (r : Nat) : Nat := (8 * r + 4) / 5

/-- The pad bytes a remainder of `r` bytes takes in a padded configuration (R98). -/
def padCount (r : Nat) : Nat :=
  match r with
  | 1 => 6
  | 2 => 4
  | 3 => 3
  | 4 => 1
  | _ => 0

/-- The symbols of the whole text: 8 for each full group and those of the partial group (R89, R96). -/
def symbolCount (n : Nat) : Nat := 8 * (n / 5) + remainderSymbols (n % 5)

/-- The count ENC returns (R100). -/
def textLength (pe : Bool) (n : Nat) : Nat :=
  if n % 5 = 0 then 8 * (n / 5)
  else if pe then 8 * (n / 5) + 8
  else 8 * (n / 5) + remainderSymbols (n % 5)

/-- Byte `j` of the encoded text: symbol `j mod 8` of group `j / 8` through the symbol table (R93, R96), and after the last
symbol the pad byte as it is (R99). -/
def textByte (sym : Symbol → Byte) (pad : Byte) (T : Nat → Byte) (n j : Nat) : Byte :=
  if j < symbolCount n then sym (symbolOf (groupValue T n (j / 8)) (j % 8)) else pad

/-- The text ENC writes from state `s` (R90). -/
def encByte (s : State) (j : Nat) : Byte := textByte (stateSym s) (cfgPad s.cfg) (ibufByte s) s.arg0 j

/-- ENC after its checks: the text at OBUF[0..), its length in RES (R90, R100). -/
def finishEnc (s : State) : State :=
  (s.writeObuf (encByte s) 0 (textLength (cfgPE s.cfg) s.arg0)).done (textLength (cfgPE s.cfg) s.arg0)

/-- ENC (R90): the checks of R105 in their order, all before any write. -/
def execEnc (s : State) : Host.Outcome State Fault Refusal :=
  if slicesInRange s = false then .next (s.raiseFatal .bufRange)
  else match stateEncodedSize s with
    | none => .next (s.raiseFatal .overflow)
    | some size =>
      if s.arg1 < size then .next (s.raiseFatal .outTooSmall)
      else .next (finishEnc s)

/-- PADD after its checks: the pad bytes at OBUF[0..), their number in RES (R103). -/
def finishPadd (s : State) : State :=
  (s.writeObuf (fun _ => cfgPad s.cfg) 0 (padCount (s.arg0 % 5))).done (padCount (s.arg0 % 5))

/-- PADD (R103). -/
def execPadd (s : State) : Host.Outcome State Fault Refusal :=
  if outputInRange s = false then .next (s.raiseFatal .bufRange)
  else if cfgPE s.cfg = false then .next (s.done 0)
  else if s.arg1 < padCount (s.arg0 % 5) then .next (s.raiseFatal .outTooSmall)
  else .next (finishPadd s)

end Sys2Proof.Machine
end

