-- ==== Sys2Proof/Machine/Dispatch.lean ====
section
/-! DEFINITION. One arm per command. -/

namespace Sys2Proof.Machine

/-- The engine runs one decoded command to its end (60_exceptions.md R134). -/
def exec (i : Instr) (s : State) : Host.Outcome State Fault Refusal :=
  match i with
  | .ldcfg imm => Sys2Proof.Machine.execLdcfg imm s
  | .clrpad => Sys2Proof.Machine.execClrpad s
  | .setpad b => Sys2Proof.Machine.execSetpad b s
  | .encsz => Sys2Proof.Machine.execEncsz s
  | .decsz => Sys2Proof.Machine.execDecsz s
  | .enc => Sys2Proof.Machine.execEnc s
  | .padd => Sys2Proof.Machine.execPadd s
  | .dec => Sys2Proof.Machine.execDec s

end Sys2Proof.Machine
end

