-- ==== Sys2Proof/Machine/Flags.lean ====
section
/-! DEFINITION. The block has no arithmetic flags (10_state.md R22); its condition codes are the fields of STATUS (R24), computed
here from PHASE and CODE. -/

namespace Sys2Proof.Machine

/-- The number of a completion code in STATUS.CODE (60_exceptions.md R130). -/
def codeBits : Code → BitVec 2
  | .ok => 0#2
  | .errLength => 1#2
  | .errByte => 2#2

/-- The number of a fatal cause in STATUS.FCAUSE (R131). -/
def causeBits : FCause → BitVec 4
  | .overflow => 1#4
  | .outTooSmall => 2#4
  | .outOverrun => 3#4
  | .config => 4#4
  | .illegalCmd => 5#4
  | .bufRange => 6#4

/-- STATUS.BUSY = (PHASE = BUSY) (10_state.md R21). -/
def phaseBusy : Phase → BitVec 1
  | .busy _ _ => 1#1
  | .idle => 0#1
  | .halted _ => 0#1

/-- STATUS.FATAL = (PHASE = HALTED) (R21). -/
def phaseFatal : Phase → BitVec 1
  | .halted _ => 1#1
  | .idle => 0#1
  | .busy _ _ => 0#1

/-- STATUS.FCAUSE: 0 until a fatal fault (R24). -/
def phaseCause : Phase → BitVec 4
  | .halted c => causeBits c
  | .idle => 0#4
  | .busy _ _ => 0#4

/-- STATUS as R24 lays it out: FCAUSE 7:4, CODE 3:2, FATAL 1, BUSY 0. -/
def statusWord (s : State) : BitVec 8 :=
  phaseCause s.phase ++ (codeBits s.code ++ (phaseFatal s.phase ++ phaseBusy s.phase))

/-- What a STATUS read returns while BUSY: BUSY = 1, FATAL = 0, CODE and FCAUSE unspecified (70_reset_and_hazards.md R159;
log 4). -/
def busyStatusWord (s : State) : BitVec 8 := Config.busyStatusBits s.draws ++ (0#1 ++ 1#1)

end Sys2Proof.Machine
end

