-- ==== Sys2Proof/Machine/HostPort.lean ====
section
/-! DEFINITION. The host port: register and buffer accesses (10_state.md R20, R29), the acceptance of a CMD write
(60_exceptions.md R133, R134), accesses while BUSY (70_reset_and_hazards.md R159), and the running of an accepted command. -/

namespace Sys2Proof.Machine

/-- RD of a register, zero-extended; CMD and indices above 7 read 0 (R14, R20). -/
def readRegister (s : State) (index : Nat) : Nat :=
  match index with
  | 1 => (statusWord s).toNat
  | 2 => s.cfg.toNat
  | 3 => s.arg0
  | 4 => s.arg1
  | 5 => s.res
  | 6 => s.errpos
  | 7 => s.errbyte.toNat
  | _ => 0

/-- The window of an accepted command. An illegal command ends at once, so no access falls inside it (30_encoding.md R66). -/
def commandWindow (word window : Nat) : Nat :=
  match decodePort word with
  | .ok _ => window
  | .error _ => 0

/-- WR CMD in IDLE or HALTED: accepted in IDLE, discarded in HALTED (60_exceptions.md R133). -/
def State.writeCmd (s : State) (v window : Nat) : State :=
  match s.phase with
  | .idle => s.startCommand (lenBits s v) (commandWindow (lenBits s v) window)
  | .busy _ _ => s
  | .halted _ => s

/-- WR of a register: CMD, ARG0 and ARG1 take it; on a read-only register or an index above 7 it is discarded (R20). -/
def State.writeReg (s : State) (index v : Nat) : State :=
  match index with
  | 0 => s.writeCmd v 0
  | 3 => { s with arg0 := lenBits s v }
  | 4 => { s with arg1 := lenBits s v }
  | _ => s

/-- A host write to IBUF; out of range it is discarded (R29). -/
def State.writeIbufByte (s : State) (i : Nat) (b : Byte) : State :=
  if i < s.par.ibufSize then { s with ibuf := Memory.write s.ibuf i b } else s

/-- A host write to OBUF; out of range it is discarded (R29). -/
def State.writeObufByte (s : State) (j : Nat) (b : Byte) : State :=
  if j < s.par.obufSize then { s with obuf := Memory.write s.obuf j b } else s

/-- A host read of IBUF; out of range it returns 0x00 (R29). -/
def hostReadIbuf (s : State) (i : Nat) : Byte := if i < s.par.ibufSize then ibufByte s i else 0#8

/-- A host read of OBUF; out of range it returns 0x00 (R29). -/
def hostReadObuf (s : State) (j : Nat) : Byte := if j < s.par.obufSize then obufByte s j else 0#8

/-- The port's answer to the last access. -/
def State.answer (s : State) (v : Option Nat) : State := { s with rdata := v }

/-- One port event while IDLE or HALTED. A read changes nothing but the answer (20_memory.md R47). -/
def State.portEvent (s : State) (ev : PortEvent) : State :=
  match ev with
  | .command v window => (s.writeCmd v window).answer none
  | .writeReg index v => (s.writeReg index v).answer none
  | .readReg index => s.answer (some (readRegister s index))
  | .writeIbuf i b => (s.writeIbufByte i b).answer none
  | .readIbuf i => s.answer (some (hostReadIbuf s i).toNat)
  | .writeObuf j b => (s.writeObufByte j b).answer none
  | .readObuf j => s.answer (some (hostReadObuf s j).toNat)
  | .reset => s.resetEvent

/-- The answer to a STATUS read while BUSY, with its free draw (R159; log 4). -/
def State.busyStatusRead (s : State) : State :=
  { s with rdata := some (busyStatusWord s).toNat, draws := s.draws + 1 }

/-- One port event while BUSY: a STATUS read or reset; the spec has no move for any other access (R159, R166; log 5). -/
def State.busyEvent (s : State) (ev : PortEvent) : Host.Outcome State Fault Refusal :=
  match ev with
  | .readReg index => if index = 1 then .next s.busyStatusRead else .fault .accessWhileBusy
  | .reset => .next s.resetEvent
  | .command _ _ => .fault .accessWhileBusy
  | .writeReg _ _ => .fault .accessWhileBusy
  | .writeIbuf _ _ => .fault .accessWhileBusy
  | .readIbuf _ => .fault .accessWhileBusy
  | .writeObuf _ _ => .fault .accessWhileBusy
  | .readObuf _ => .fault .accessWhileBusy

/-- The engine runs the accepted command; an illegal word ends it with F_ILLEGAL_CMD (60_exceptions.md R134, R142). -/
def runCommand (word : Nat) (s : State) : Host.Outcome State Fault Refusal :=
  match decodePort word with
  | .ok i => exec i s
  | .error _ => .next (s.raiseFatal .illegalCmd)

/-- One step while BUSY: an access that is due in the window, else the command runs to its end. -/
def stepBusy (word window : Nat) (s : State) : Host.Outcome State Fault Refusal :=
  match window, s.port with
  | k + 1, ev :: rest => State.busyEvent { s with phase := .busy word k, port := rest } ev
  | _, _ => runCommand word s

/-- One step while IDLE or HALTED: the next port event; with none to come the block does nothing (60_exceptions.md R150). -/
def stepReady (s : State) : State :=
  match s.port with
  | [] => s
  | ev :: rest => State.portEvent { s with port := rest } ev

/-- One step of the block (10_state.md R21). -/
def stepBlock (s : State) : Host.Outcome State Fault Refusal :=
  match s.phase with
  | .busy word window => stepBusy word window s
  | .idle => .next (stepReady s)
  | .halted _ => .next (stepReady s)

/-- The state in which the command of a table word has just been accepted (60_exceptions.md R134). -/
def State.withAccepted (s : State) (nbits w : Nat) : State := s.startCommand (w % 2 ^ nbits) 0

end Sys2Proof.Machine
end

