-- ==== Sys2Proof/Machine/Step.lean ====
section
/-! DEFINITION. The step of the machine, and the placing of a command where the next step runs it. -/

namespace Sys2Proof.Machine

/-- One step: the engine's command while BUSY, else the next port event. -/
def step (s : State) : Host.Outcome State Fault Refusal := stepBlock s

/-- `s` with the command of the word just accepted by the port, so that the next step runs it. The block fetches nothing
(20_memory.md R53): a command comes by a CMD write, and this stands for one that IDLE has accepted (log 2). -/
def State.withFetchWord (s : State) (nbits w : Nat) : State := s.withAccepted nbits w

end Sys2Proof.Machine
end

