-- ==== Sys2Proof/Machine/HostCalls.lean ====
section
/-! DEFINITION. The host notation of 00_scope.md R11 (one access, `CMD`, `WAIT`) and the pseudo-instructions of 30_encoding.md R69:
host sequences that realise the document's operations which are no commands, with what each gives back. During a sequence the
host does nothing else, so the port holds the one access it is making (log 16). -/

namespace Sys2Proof.Machine

/-- `f` on what `o` gives; a stop of the machine stops the host's sequence. -/
def followedBy {α β : Type} (o : Host.Outcome α Fault Refusal) (f : α → Host.Outcome β Fault Refusal) :
    Host.Outcome β Fault Refusal :=
  match o with
  | .next a => f a
  | .fault r => .fault r
  | .refused r => .refused r

/-- The port presents one access. -/
def State.present (s : State) (ev : PortEvent) : State := { s with port := [ev] }

/-- One host access, up to the port's answer (R11). Where the running command is due to end before it, the command ends first. -/
def hostAccess (s : State) (ev : PortEvent) : Host.Outcome State Fault Refusal :=
  match s.phase with
  | .busy _ 0 => followedBy (step (s.present ev)) step
  | .busy _ (_ + 1) => step (s.present ev)
  | .idle => step (s.present ev)
  | .halted _ => step (s.present ev)

/-- What the port answered to the last access. -/
def portAnswer (s : State) : Nat := s.rdata.getD 0

/-- The last answer, a STATUS value, has BUSY = 1 (10_state.md R24). -/
def answerBusy (s : State) : Bool := (portAnswer s).testBit 0

/-- The last answer, a STATUS value, has FATAL = 1 (R24). -/
def answerFatal (s : State) : Bool := (portAnswer s).testBit 1

/-- At most `reads + 1` reads of STATUS, until one answers BUSY = 0. -/
def statusReads : (reads : Nat) → State → Host.Outcome State Fault Refusal
  | 0, s => hostAccess s (.readReg 1)
  | k + 1, s => followedBy (hostAccess s (.readReg 1)) fun t => if answerBusy t then statusReads k t else .next t

/-- How many accesses arrive before the running command has ended (log 5). -/
def phaseWindow : Phase → Nat
  | .busy _ window => window
  | .idle => 0
  | .halted _ => 0

/-- `WAIT`: read STATUS until BUSY = 0 (R11). It always ends (70_reset_and_hazards.md R165). -/
def hostWait (s : State) : Host.Outcome State Fault Refusal := statusReads (phaseWindow s.phase) s

/-- `CMD i` (R11, 30_encoding.md R68). `window i` says how many accesses arrive before the command has ended (log 5). -/
def hostCommand (window : Instr → Nat) (i : Instr) (s : State) : Host.Outcome State Fault Refusal :=
  hostAccess s (.command (encode i).toNat (window i))

/-- What a pseudo-instruction gives back (R69). -/
inductive CallResult where
  /-- The command is issued; there is no result to read. -/
  | issued
  /-- ENCODE: the text OB[0 .. RES-1]. -/
  | text (bytes : List Byte)
  /-- DECODE with STATUS.CODE = OK: the bytes OB[0 .. RES-1]. -/
  | decoded (bytes : List Byte)
  /-- DECODE with another STATUS.CODE: the error (STATUS.CODE, ERRPOS, ERRBYTE). -/
  | error (code : BitVec 2) (pos byte : Nat)
  /-- The sequence stopped because STATUS.FATAL = 1. -/
  | stopped
  deriving DecidableEq, Repr

/-- The end of a pseudo-instruction: what it gave back, and the block. -/
structure CallEnd where
  result : CallResult
  block : State
  deriving DecidableEq, Repr

/-- `CMD i; WAIT`, and then `rest`, unless the block has halted: each expansion stops at the first command that halts the block
(R69). -/
def commandWait (window : Instr → Nat) (i : Instr) (rest : State → Host.Outcome CallEnd Fault Refusal) (s : State) :
    Host.Outcome CallEnd Fault Refusal :=
  followedBy (followedBy (hostCommand window i s) hostWait) fun t =>
    if answerFatal t then .next ⟨.stopped, t⟩ else rest t

/-- `WR ARG0, n; CMD ask; WAIT; s <- RD RES; WR ARG1, s; CMD run; WAIT` (R69): the length is sized, then the engine runs with the
size as its capacity. -/
def sizedCall (window : Instr → Nat) (ask run : Instr) (result : State → CallResult) (n : Nat) (s : State) :
    Host.Outcome CallEnd Fault Refusal :=
  followedBy (hostAccess s (.writeReg 3 n)) <| commandWait window ask fun t =>
    followedBy (hostAccess t (.readReg 5)) fun u =>
      followedBy (hostAccess u (.writeReg 4 (portAnswer u))) <| commandWait window run fun v => .next ⟨result v, v⟩

/-- OB[0 .. RES-1] as the host reads it (10_state.md R29). -/
def resultBytes (s : State) : List Byte := (List.range (readRegister s 5)).map (hostReadObuf s)

/-- STATUS.CODE (10_state.md R24). -/
def statusCode (s : State) : BitVec 2 := (statusWord s).extractLsb' 2 2

/-- What ENCODE gives (R69). -/
def encodeResult (s : State) : CallResult := .text (resultBytes s)

/-- What DECODE gives (R69). -/
def decodeResult (s : State) : CallResult :=
  if statusCode s = 0#2 then .decoded (resultBytes s)
  else .error (statusCode s) (readRegister s 6) (readRegister s 7)

/-- The pseudo-instructions (R69). -/
inductive HostCall where
  | ldstd | ldhex | ldcrk | ldzb
  | withPad (pad : Option Byte)
  | encode (n : Nat)
  | decode (m : Nat)
  | encodeDefault (n : Nat)
  | decodeDefault (m : Nat)
  deriving DecidableEq, Repr

/-- A pseudo-instruction that is one `CMD`. -/
def issue (window : Instr → Nat) (i : Instr) (s : State) : Host.Outcome CallEnd Fault Refusal :=
  followedBy (hostCommand window i s) fun t => .next ⟨.issued, t⟩

/-- ENCODE n (R69). -/
def encodeCall (window : Instr → Nat) (n : Nat) : State → Host.Outcome CallEnd Fault Refusal :=
  sizedCall window .encsz .enc encodeResult n

/-- DECODE m (R69). -/
def decodeCall (window : Instr → Nat) (m : Nat) : State → Host.Outcome CallEnd Fault Refusal :=
  sizedCall window .decsz .dec decodeResult m

/-- The expansion of each pseudo-instruction (R69). -/
def runCall (window : Instr → Nat) : HostCall → State → Host.Outcome CallEnd Fault Refusal
  | .ldstd => issue window (.ldcfg 0x00#8)
  | .ldhex => issue window (.ldcfg 0x01#8)
  | .ldcrk => issue window (.ldcfg 0x02#8)
  | .ldzb => issue window (.ldcfg 0x03#8)
  | .withPad (some b) => issue window (.setpad b)
  | .withPad none => issue window .clrpad
  | .encode n => encodeCall window n
  | .decode m => decodeCall window m
  | .encodeDefault n => commandWait window (.ldcfg 0x00#8) (encodeCall window n)
  | .decodeDefault m => commandWait window (.ldcfg 0x00#8) (decodeCall window m)

end Sys2Proof.Machine
end

