-- ==== Sys2Proof/Machine/Stages.lean ====
section
/-! DEFINITION. The three stages the engines run inside (42_encode.md R102, 43_decode.md R126): the batched stage with its wide
accesses, the scalar chunk stage, and the remainder or tail stage. They are invisible (00_scope.md R8), so ENC and DEC are
defined without them; that they compute the same is what the obligations about them say (log 7). -/

namespace Sys2Proof.Machine

/-- The 8-byte big-endian word at index `i` of the input (R102; 20_memory.md R42). -/
def wideWord (T : Nat → Byte) (i : Nat) : BitVec 64 :=
  T i ++ T (i + 1) ++ T (i + 2) ++ T (i + 3) ++ T (i + 4) ++ T (i + 5) ++ T (i + 6) ++ T (i + 7)

/-- One group of the batched stage: eight symbols by the shifts 59, 54, .., 24 on a wide word (R93). -/
def wideSymbols (sym : Symbol → Byte) (T : Nat → Byte) (i : Nat) : List Byte :=
  (List.range 8).map fun k => sym ((wideWord T i >>> (59 - 5 * k)).setWidth 5)

/-- One iteration of the batched stage: four overlapping words at offsets 0, 5, 10, 15 give 32 symbols (R102). -/
def batchSymbols (sym : Symbol → Byte) (T : Nat → Byte) (i : Nat) : List Byte :=
  wideSymbols sym T i ++ wideSymbols sym T (i + 5) ++ wideSymbols sym T (i + 10) ++ wideSymbols sym T (i + 15)

/-- The 40-bit value of the scalar stage, from 5 bytes by shifts and ORs (R92). -/
def scalarValue (T : Nat → Byte) (i : Nat) : Group :=
  ((T i).setWidth 40 <<< 32) ||| ((T (i + 1)).setWidth 40 <<< 24) ||| ((T (i + 2)).setWidth 40 <<< 16)
    ||| ((T (i + 3)).setWidth 40 <<< 8) ||| (T (i + 4)).setWidth 40

/-- One chunk of the scalar stage (R102). -/
def scalarSymbols (sym : Symbol → Byte) (T : Nat → Byte) (i : Nat) : List Byte :=
  (List.range 8).map fun k => sym ((scalarValue T i >>> (35 - 5 * k)).setWidth 5)

/-- The value of the remainder stage: `V <- V | (zext_40(B[i+d]) << (32-8d))` for the `r` remaining bytes (R90, R95). -/
def remainderValue (T : Nat → Byte) (i : Nat) : Nat → Group
  | 0 => 0#40
  | d + 1 => remainderValue T i d ||| ((T (i + d)).setWidth 40 <<< (32 - 8 * d))

/-- The remainder stage on the last `r` bytes, 0 to 4 of them: symbols, then padding to a multiple of 8 (R96 to R99). -/
def remainderStage (sym : Symbol → Byte) (pad : Option Byte) (T : Nat → Byte) (i r : Nat) : List Byte :=
  (List.range (remainderSymbols r)).map (fun k => sym ((remainderValue T i r >>> (35 - 5 * k)).setWidth 5)) ++
    (match pad with
    | some p => List.replicate (padCount r) p
    | none => [])

/-- The encoder from input index `i` on: a batch while at least 23 bytes remain and `batch` is 4, else a chunk while at least
5 remain, else the remainder (R102). `fuel` bounds the iterations. -/
def encoderStages (batch : Nat) (sym : Symbol → Byte) (pad : Option Byte) (T : Nat → Byte) (n : Nat) :
    (fuel i : Nat) → List Byte
  | 0, i => remainderStage sym pad T i (n - i)
  | fuel + 1, i =>
    if batch = 4 ∧ 23 ≤ n - i then batchSymbols sym T i ++ encoderStages batch sym pad T n fuel (i + 20)
    else if 5 ≤ n - i then scalarSymbols sym T i ++ encoderStages batch sym pad T n fuel (i + 5)
    else remainderStage sym pad T i (n - i)

/-- The whole text as the staged encoder emits it. -/
def stagedText (batch : Nat) (sym : Symbol → Byte) (pad : Option Byte) (T : Nat → Byte) (n : Nat) : List Byte :=
  encoderStages batch sym pad T n n 0

/-- Byte `i` of the 8 big-endian bytes the batched decoder writes for a group: 5 valid bytes, then 3 of slack (R126). What the
slack bytes hold is open (R125 "any byte", 70_reset_and_hazards.md R158): they are the argument `slack`, any 24 bits
(DESIGN CHOICE, log 7). -/
def wideByte (V : Group) (slack : BitVec 24) (i : Nat) : Byte := ((V ++ slack).extractLsb' (56 - 8 * i) 8)

/-- The batched stage on the first `chunks` chunks: 8 bytes at a 5-byte stride, each group's slack overwritten by the next
(R126); `slack j` is the slack written after group `j` (log 7). -/
def batchedDecode (slack : Nat → BitVec 24) (inv : Byte → Option Symbol) (T : Nat → Byte) (len : Nat) (m : Memory) :
    (chunks : Nat) → Memory
  | 0 => m
  | j + 1 =>
    Memory.writeRange (batchedDecode slack inv T len m j) (fun a => wideByte (chunkValue inv T len j) (slack j) (a - 5 * j))
      (5 * j) 8

/-- The scalar stage on `count` chunks from chunk `j0` on: the 5 valid bytes of each (R126). -/
def scalarDecode (inv : Byte → Option Symbol) (T : Nat → Byte) (len j0 : Nat) (m : Memory) : (count : Nat) → Memory
  | 0 => m
  | k + 1 =>
    Memory.writeRange (scalarDecode inv T len j0 m k) (fun a => byteOf (chunkValue inv T len (j0 + k)) (a - 5 * (j0 + k)))
      (5 * (j0 + k)) 5

/-- The decoder's writes on a text it accepts: `batches` batches of 4 chunks, the other body chunks one at a time, then the
`nb` bytes of the tail (R126, R116); `slack` gives the slack bytes of each batched group (log 7). -/
def stagedDecode (batches : Nat) (slack : Nat → BitVec 24) (inv : Byte → Option Symbol) (T : Nat → Byte) (len c nb : Nat)
    (m : Memory) : Memory :=
  Memory.writeRange
    (scalarDecode inv T len (4 * batches) (batchedDecode slack inv T len m (4 * batches)) (c - 4 * batches))
    (fun a => byteOf (chunkValue inv T len c) (a - 5 * c)) (5 * c) nb

end Sys2Proof.Machine
end

