-- ==== Sys2Proof/Safety.lean ====
section
/-! DEFINITION. What claims use: the invariant of the state, what counts as a good run (60_exceptions.md R149), and the frames the
statements about commands are written with. -/

namespace Sys2Proof.Machine

/-- Every register is a LEN_W-bit value (10_state.md R15 to R18), and so is the word of a running command (R23). -/
abbrev registersInRange (s : State) : Prop :=
  s.arg0 < 2 ^ s.par.lenW ∧ s.arg1 < 2 ^ s.par.lenW ∧ s.res < 2 ^ s.par.lenW ∧ s.errpos < 2 ^ s.par.lenW

/-- The word a BUSY block runs is a LEN_W-bit value (R23). -/
def phaseWordInRange (s : State) : Bool :=
  match s.phase with
  | .busy word _ => decide (word < 2 ^ s.par.lenW)
  | .idle => true
  | .halted _ => true

/-- Both buffers are in canonical form and list indices of theirs only (R27, R28). -/
abbrev buffersWf (s : State) : Prop :=
  Memory.wf s.ibuf ∧ Memory.below s.ibuf s.par.ibufSize ∧ Memory.wf s.obuf ∧ Memory.below s.obuf s.par.obufSize

/-- The result registers agree with PHASE and CODE: BUSY and HALTED show CODE = OK and cleared results (R24; 60_exceptions.md
R134, R139); only ERR_BYTE has an error position and byte (R18, R19); an error has no result (R17). -/
abbrev resultsConsistent (s : State) : Prop :=
  (s.phase ≠ .idle → s.code = .ok ∧ s.res = 0) ∧
  (s.code ≠ .errByte → s.errpos = 0 ∧ s.errbyte = 0#8) ∧
  (s.code ≠ .ok → s.res = 0)

/-- The invariant every step keeps. The last clause is about the model's own counters: a free draw is never one made before. -/
abbrev State.Inv (s : State) : Prop :=
  s.par.wf ∧ registersInRange s ∧ phaseWordInRange s = true ∧ cfgLegal s.par s.cfg ∧ buffersWf s ∧ resultsConsistent s ∧
    s.epoch ≤ s.draws

/-- A run that ends HALTED has gone wrong (60_exceptions.md R149). -/
def isHalted (s : State) : Bool :=
  match s.phase with
  | .halted _ => true
  | .idle => false
  | .busy _ _ => false

/-- A host write of `v` to CMD: the event that carries a window, or a write of register 0, which has none (10_state.md R14, R23;
log 5, log 12). -/
abbrev isCmdWrite (ev : PortEvent) (v window : Nat) : Prop :=
  ev = .command v window ∨ (ev = .writeReg 0 v ∧ window = 0)

/-- What no command writes (20_memory.md R49, 10_state.md R15, R16, R27), with the model's own input fields. -/
abbrev sameInputs (s t : State) : Prop :=
  t.par = s.par ∧ t.arg0 = s.arg0 ∧ t.arg1 = s.arg1 ∧ t.ibuf = s.ibuf ∧ t.epoch = s.epoch ∧ t.port = s.port ∧ t.rdata = s.rdata

/-- The two states agree in all that a command reads (10_state.md R37). -/
abbrev sameOperands (s u : State) : Prop :=
  u.par = s.par ∧ u.cfg = s.cfg ∧ u.arg0 = s.arg0 ∧ u.arg1 = s.arg1 ∧ u.ibuf = s.ibuf ∧ u.epoch = s.epoch

/-- OBUF is unchanged at every index from `start` on. -/
abbrev obufSameFrom (s t : State) (start : Nat) : Prop := ∀ j, start ≤ j → obufByte t j = obufByte s j

/-- A command has ended with success and result `v` (60_exceptions.md R135). -/
abbrev endedOk (t : State) (v : Nat) : Prop :=
  t.phase = .idle ∧ t.code = .ok ∧ t.res = v ∧ t.errpos = 0 ∧ t.errbyte = 0#8

/-- A command has ended with a recoverable error (R136). -/
abbrev endedError (t : State) (c : Code) (pos : Nat) (b : Byte) : Prop :=
  t.phase = .idle ∧ t.code = c ∧ t.res = 0 ∧ t.errpos = pos ∧ t.errbyte = b

/-- A command has ended with a fatal fault (R139). -/
abbrev endedFatal (t : State) (cause : FCause) : Prop :=
  t.phase = .halted cause ∧ t.code = .ok ∧ t.res = 0 ∧ t.errpos = 0 ∧ t.errbyte = 0#8

/-- What DECODE gives where its DEC ends in `v` (30_encoding.md R69): nothing where the block has halted, the bytes where CODE is
OK, else the error. -/
def decodeOutcome (v : State) : CallResult :=
  if isHalted v then .stopped
  else if v.code = .ok then .decoded ((List.range v.res).map (obufByte v))
  else .error (codeBits v.code) v.errpos v.errbyte.toNat

/-- The registers that tell how a command has ended are the same. -/
abbrev sameEnding (t v : State) : Prop :=
  t.phase = v.phase ∧ t.code = v.code ∧ t.res = v.res ∧ t.errpos = v.errpos ∧ t.errbyte = v.errbyte

/-- The text of `s` is consumed up to `8c + ns`: its `c` body chunks and `ns` bytes of its tail (R110, R115). -/
def consumesTo (s : State) (c ns : Nat) : Prop :=
  ∃ tail : Nat, s.arg0 = 8 * c + tail ∧ tail ≤ 8 ∧ (s.arg0 ≠ 0 → 1 ≤ tail) ∧ ns ≤ tail ∧
    (∀ k, k < ns → ¬ (cfgPE s.cfg = true ∧ ibufByte s (8 * c + k) = cfgPad s.cfg)) ∧
    (ns < tail → cfgPE s.cfg = true ∧ ibufByte s (8 * c + ns) = cfgPad s.cfg)

/-- The contract of DEC holds (R108, R143): both slices fit their buffers and ARG1 is at least `decoded_size`. -/
def decContract (s : State) : Prop :=
  s.arg0 ≤ s.par.ibufSize ∧ s.arg1 ≤ s.par.obufSize ∧
    ∃ size, decodedSize s.par.lenW (cfgPE s.cfg) s.arg0 = some size ∧ size ≤ s.arg1

/-- Every byte below `len` is a symbol of the selected alphabet (R111). -/
def allSymbols (s : State) (len : Nat) : Prop := ∀ i, i < len → invLookup s.par (cfgAlpha s.cfg) (ibufByte s i) ≠ none

/-- The 5-bit value the byte at index `i` of the text stands for. -/
def textSymbol (s : State) (i : Nat) : Nat := ((invLookup s.par (cfgAlpha s.cfg) (ibufByte s i)).getD 0#5).toNat

end Sys2Proof.Machine
end

