-- ==== Sys2Proof/Certificates/Slice0/Obligations.lean ====
section
/-! DEFINITION. The statements for the provers. Each docstring names the rule of spec/ it formalises. Nothing here rests on the
value of a free constant of Config or on a value of the model's own fields: a statement holds for every value of them. -/

open Sys2Proof Sys2Proof.Machine

/-! ## The command word -/

/-- R57 to R65: decoding the word of a well-formed instruction gives it back, every operand included. -/
def Obligations.DecodeOfEncode : Prop :=
  ∀ i : Instr, i.wellFormed = true → decodePort (encode i).toNat = .ok i

/-- R62: a CMD value that decodes is the word of the well-formed instruction it decodes to, and the word of no other instruction. -/
def Obligations.EncodeOfDecode : Prop :=
  ∀ (v : Nat) (i : Instr), decodePort v = .ok i →
    i.wellFormed = true ∧ (encode i).toNat = v ∧ ∀ j : Instr, (encode j).toNat = v → j = i

/-- R58, R62, R66: a CMD value is illegal exactly where a bit above bit 15 is set or its low 16 bits match no row of the opcode
table; and those words are the ones R66 lists. -/
def Obligations.IllegalWordsMatchNoRow : Prop :=
  (∀ v : Nat, (∃ e, decodePort v = .error e) ↔
    (2 ^ 16 ≤ v ∨ ∀ r ∈ opcodeTable, r.accepts (BitVec.ofNat 16 v) = false)) ∧
  (∀ w : CmdWord, (∃ e, decodeWord w = .error e) ↔
    (wordOp w = 0#4 ∨ 8#4 ≤ wordOp w ∨ wordZ w ≠ 0#3 ∨
      (wordOp w = 1#4 ∧ (wordP w = 1#1 ∨ (wordImm w).extractLsb' 2 6 ≠ 0#6)) ∨
      (wordOp w = 2#4 ∧ wordP w = 0#1 ∧ wordImm w ≠ 0#8) ∨
      (3#4 ≤ wordOp w ∧ wordOp w ≤ 7#4 ∧ (wordP w = 1#1 ∨ wordImm w ≠ 0#8))))

/-- R62 to R65: a few words written out bit by bit from the table decode to the commands they stand for. -/
def Obligations.WrittenOutWordsDecode : Prop :=
  decodeTableWord 16 0b0001000000000010 = some (.ldcfg 0x02#8) ∧
  decodeTableWord 16 0b0010000000000000 = some .clrpad ∧
  decodeTableWord 16 0b0010000100111101 = some (.setpad 0x3D#8) ∧
  decodeTableWord 16 0b0011000000000000 = some .encsz ∧
  decodeTableWord 16 0b0100000000000000 = some .decsz ∧
  decodeTableWord 16 0b0101000000000000 = some .enc ∧
  decodeTableWord 16 0b0110000000000000 = some .padd ∧
  decodeTableWord 16 0b0111000000000000 = some .dec

/-! ## The life of a command, the port, reset -/

/-- R134: while BUSY the engine runs the decoded command: the step is `exec` of it. That it does so once no access is due in the
window is the model's choice (log 5), and so is that a placed table word stands for an accepted CMD write, which the very next step
runs (`State.withFetchWord`, log 2). -/
def Obligations.StepRunsDecodedCommand : Prop :=
  (∀ (s : State) (w k : Nat) (i : Instr), s.phase = .busy w k → (k = 0 ∨ s.port = []) → decodePort w = .ok i →
    step s = exec i s) ∧
  (∀ (s : State) (nbits w : Nat) (i : Instr), decodeTableWord nbits w = some i →
    step (s.withFetchWord nbits w) = exec i (s.withFetchWord nbits w))

/-- R133, R134: a CMD write in IDLE makes the block BUSY with that word and clears CODE and the result registers, changing
nothing else; then, with no access due in the window (log 5), the decoded command runs, or the illegal word halts the block. -/
def Obligations.CmdWriteStartsCommand : Prop :=
  ∀ (s : State) (ev : PortEvent) (v window : Nat) (rest : List PortEvent), isCmdWrite ev v window → s.phase = .idle →
    s.port = ev :: rest →
    ∃ (t : State) (k : Nat), step s = .next t ∧ k ≤ window ∧ t.phase = .busy (v % 2 ^ s.par.lenW) k ∧
      t.code = .ok ∧ t.res = 0 ∧ t.errpos = 0 ∧ t.errbyte = 0#8 ∧ t.port = rest ∧
      t.par = s.par ∧ t.cfg = s.cfg ∧ t.arg0 = s.arg0 ∧ t.arg1 = s.arg1 ∧ t.ibuf = s.ibuf ∧ t.obuf = s.obuf ∧
      t.epoch = s.epoch ∧ t.draws = s.draws ∧
      ((k = 0 ∨ rest = []) →
        (∀ i, decodePort (v % 2 ^ s.par.lenW) = .ok i → step t = exec i t) ∧
        (∀ e, decodePort (v % 2 ^ s.par.lenW) = .error e → ∃ u, step t = .next u ∧ endedFatal u .illegalCmd))

/-- R66, R142: an illegal value written to CMD in IDLE ends at once with F_ILLEGAL_CMD, with no access in between; CFG, ARG0,
ARG1 and both buffers are as before. -/
def Obligations.IllegalCommandHalts : Prop :=
  ∀ (s : State) (ev : PortEvent) (v window : Nat) (rest : List PortEvent), isCmdWrite ev v window → s.phase = .idle →
    s.port = ev :: rest →
    (2 ^ 16 ≤ v % 2 ^ s.par.lenW ∨ ∀ r ∈ opcodeTable, r.accepts (BitVec.ofNat 16 (v % 2 ^ s.par.lenW)) = false) →
    ∃ t u : State, step s = .next t ∧ step t = .next u ∧ endedFatal u .illegalCmd ∧ u.port = rest ∧ u.par = s.par ∧
      u.cfg = s.cfg ∧ u.arg0 = s.arg0 ∧ u.arg1 = s.arg1 ∧ ibufByte u = ibufByte s ∧ obufByte u = obufByte s

/-- R133: a CMD write is accepted in IDLE; in HALTED it is discarded and changes no register, buffer or phase, so FATAL and
FCAUSE stay; in BUSY it is the hazard of R159: that the model stops there with accessWhileBusy is its choice (log 5). -/
def Obligations.CmdWriteByPhase : Prop :=
  ∀ (s : State) (ev : PortEvent) (v window : Nat) (rest : List PortEvent), isCmdWrite ev v window → s.port = ev :: rest →
    (s.phase = .idle → ∃ t k, step s = .next t ∧ t.phase = .busy (v % 2 ^ s.par.lenW) k) ∧
    (∀ c, s.phase = .halted c → step s = .next { s with port := rest, rdata := none }) ∧
    (∀ w k, s.phase = .busy w (k + 1) → step s = .fault .accessWhileBusy)

/-- R133, R139, R151: HALTED, and the first cause with it, lasts until a reset. -/
def Obligations.HaltedUntilReset : Prop :=
  ∀ (s t : State) (c : FCause), s.phase = .halted c → step s = .next t →
    t.phase = .halted c ∨ (s.port.head? = some .reset ∧ t.phase = .idle)

/-- R38, R151 to R153: a reset that is due (log 5), in any phase, gives the reset state; nothing is listed in the buffers, so every byte of them is
a free value drawn at this reset (log 3). -/
def Obligations.ResetEventGivesResetState : Prop :=
  ∀ (s : State) (rest : List PortEvent), s.port = .reset :: rest →
    (∀ w, s.phase ≠ .busy w 0) →
    ∃ t : State, step s = .next t ∧ t.phase = .idle ∧ statusWord t = 0#8 ∧ t.cfg = 0x13D#11 ∧ t.arg0 = 0 ∧ t.arg1 = 0 ∧
      t.res = 0 ∧ t.errpos = 0 ∧ t.errbyte = 0#8 ∧ t.par = s.par ∧ t.port = rest ∧ s.draws < t.epoch ∧
      (∀ i, ibufByte t i = Config.ibufFill t.epoch i) ∧ (∀ j, obufByte t j = Config.obufFill t.epoch j)

/-- R38, R14: what the registers read at reset, and the phase. -/
def Obligations.ResetRegisterValues : Prop :=
  State.reset.phase = .idle ∧
  (List.range 8).map (readRegister State.reset) = [0, 0x00, 0x13D, 0, 0, 0, 0, 0]

/-- R159: a STATUS read that arrives while BUSY (in the window, log 5) returns BUSY = 1 and FATAL = 0, and changes nothing of the block; its CODE and
FCAUSE bits are a free value (log 4). -/
def Obligations.StatusReadWhileBusy : Prop :=
  ∀ (s : State) (w k : Nat) (rest : List PortEvent), s.phase = .busy w (k + 1) → s.port = .readReg 1 :: rest →
    ∃ r : Nat, r < 256 ∧ r % 4 = 1 ∧
      step s = .next { s with phase := .busy w k, port := rest, rdata := some r, draws := s.draws + 1 }

/-- R159, R166: for every other access that arrives while BUSY there is no move; the model stops with a fault (log 5). -/
def Obligations.OtherAccessWhileBusyStops : Prop :=
  ∀ (s : State) (w k : Nat) (ev : PortEvent) (rest : List PortEvent), s.phase = .busy w (k + 1) → s.port = ev :: rest →
    ev ≠ .readReg 1 → ev ≠ .reset → step s = .fault .accessWhileBusy

/-- R20 (R14 for the values read, R23 and R133 for CMD): outside BUSY, a write to a read-only register or to an index above 7
changes nothing; CMD and indices above 7 read 0, the other registers their value; a write to ARG0 or ARG1 stores the low LEN_W bits
and has no other effect, in HALTED too; a write to CMD by register 0 (its window is none, log 5, log 12) starts a command with cleared
results in IDLE and is discarded in HALTED. -/
def Obligations.RegisterAccessRules : Prop :=
  ∀ (s : State) (index v : Nat) (rest : List PortEvent), (∀ w k, s.phase ≠ .busy w k) →
    (s.port = .writeReg index v :: rest → (index ≠ 0 ∧ index ≠ 3 ∧ index ≠ 4) →
      step s = .next { s with port := rest, rdata := none }) ∧
    (s.port = .writeReg 0 v :: rest →
      (s.phase = .idle → step s = .next { s with
        port := rest, rdata := none, phase := .busy (v % 2 ^ s.par.lenW) 0, code := .ok, res := 0, errpos := 0, errbyte := 0#8 }) ∧
      (∀ c, s.phase = .halted c → step s = .next { s with port := rest, rdata := none })) ∧
    (s.port = .writeReg 3 v :: rest → step s = .next { s with port := rest, rdata := none, arg0 := v % 2 ^ s.par.lenW }) ∧
    (s.port = .writeReg 4 v :: rest → step s = .next { s with port := rest, rdata := none, arg1 := v % 2 ^ s.par.lenW }) ∧
    (s.port = .readReg index :: rest → ∃ r, step s = .next { s with port := rest, rdata := some r } ∧
      ((index = 0 ∨ 7 < index) → r = 0) ∧ (index = 1 → r = (statusWord s).toNat) ∧ (index = 2 → r = s.cfg.toNat) ∧
      (index = 3 → r = s.arg0) ∧ (index = 4 → r = s.arg1) ∧ (index = 5 → r = s.res) ∧ (index = 6 → r = s.errpos) ∧
      (index = 7 → r = s.errbyte.toNat))

/-- R29, R47: outside BUSY, a host write to a buffer sets that byte and no other and changes nothing else of the block, neither the
other buffer nor a register; out of range it is discarded and changes nothing; a host read returns the byte, 0x00 out of range, and
changes nothing. -/
def Obligations.BufferAccessRules : Prop :=
  ∀ (s : State) (i : Nat) (b : Byte) (rest : List PortEvent), (∀ w k, s.phase ≠ .busy w k) →
    (s.port = .writeIbuf i b :: rest →
      (i < s.par.ibufSize → ∃ m : Memory, step s = .next { s with port := rest, rdata := none, ibuf := m } ∧
        ∀ j, ibufByte { s with ibuf := m } j = if j = i then b else ibufByte s j) ∧
      (s.par.ibufSize ≤ i → step s = .next { s with port := rest, rdata := none })) ∧
    (s.port = .writeObuf i b :: rest →
      (i < s.par.obufSize → ∃ m : Memory, step s = .next { s with port := rest, rdata := none, obuf := m } ∧
        ∀ j, obufByte { s with obuf := m } j = if j = i then b else obufByte s j) ∧
      (s.par.obufSize ≤ i → step s = .next { s with port := rest, rdata := none })) ∧
    (s.port = .readIbuf i :: rest → step s =
      .next { s with port := rest, rdata := some (if i < s.par.ibufSize then (ibufByte s i).toNat else 0) }) ∧
    (s.port = .readObuf i :: rest → step s =
      .next { s with port := rest, rdata := some (if i < s.par.obufSize then (obufByte s i).toNat else 0) })

/-- R24, R21: the fields of STATUS, and its legal combinations in every state that meets the invariant. -/
def Obligations.StatusFieldsOfPhase : Prop :=
  ∀ s : State,
    ((statusWord s).extractLsb' 0 1 = 1#1 ↔ ∃ w k, s.phase = .busy w k) ∧
    ((statusWord s).extractLsb' 1 1 = 1#1 ↔ ∃ c, s.phase = .halted c) ∧
    (statusWord s).extractLsb' 2 2 = codeBits s.code ∧
    (∀ c, s.phase = .halted c → (statusWord s).extractLsb' 4 4 = causeBits c) ∧
    (s.Inv →
      ((statusWord s).extractLsb' 1 1 = 0#1 → (statusWord s).extractLsb' 4 4 = 0#4) ∧
      ((statusWord s).extractLsb' 1 1 = 1#1 → (statusWord s).extractLsb' 0 1 = 0#1 ∧
        (statusWord s).extractLsb' 2 2 = 0#2 ∧ 1#4 ≤ (statusWord s).extractLsb' 4 4 ∧
        (statusWord s).extractLsb' 4 4 ≤ 6#4) ∧
      (s.phase = .idle → s.code = .errLength → statusWord s = 0x04#8) ∧
      (s.phase = .idle → s.code = .errByte → statusWord s = 0x08#8) ∧
      (s.phase = .halted .overflow → statusWord s = 0x12#8) ∧ (s.phase = .halted .outTooSmall → statusWord s = 0x22#8) ∧
      (s.phase = .halted .outOverrun → statusWord s = 0x32#8) ∧ (s.phase = .halted .config → statusWord s = 0x42#8) ∧
      (s.phase = .halted .illegalCmd → statusWord s = 0x52#8) ∧ (s.phase = .halted .bufRange → statusWord s = 0x62#8))

/-- R165: an accepted command ends after finitely many steps, whatever STATUS reads arrive in its window (log 5). -/
def Obligations.EveryAcceptedCommandEnds : Prop :=
  ∀ (s : State) (w k : Nat), s.phase = .busy w k → (∀ ev ∈ s.port.take k, ev = .readReg 1) →
    ∃ (n : Nat) (t : State), n ≤ k + 1 ∧ core.run n s = .next t ∧ ∀ w' k', t.phase ≠ .busy w' k'

/-- R13: the parameters are no state, and the block does nothing to the port events still to come but take the next one. -/
def Obligations.ParametersNeverChange : Prop :=
  ∀ s t : State, step s = .next t → t.par = s.par ∧ (t.port = s.port ∨ t.port = s.port.tail)

/-! ## Configuration commands -/

/-- R72: LDCFG loads the whole built-in configuration numbered IMM[1:0] and succeeds, from every state. -/
def Obligations.LdcfgLoadsBuiltIn : Prop :=
  ∀ (imm : Byte) (s : State), ∃ t, exec (.ldcfg imm) s = .next t ∧ endedOk t 0 ∧
    (imm.extractLsb' 0 2 = 0#2 → t.cfg = 0x13D#11) ∧ (imm.extractLsb' 0 2 = 1#2 → t.cfg = 0x33D#11) ∧
    (imm.extractLsb' 0 2 = 2#2 → t.cfg = 0x400#11) ∧ (imm.extractLsb' 0 2 = 3#2 → t.cfg = 0x600#11)

/-- R73: SETPAD of a byte that is no symbol of the selected alphabet installs it as the pad byte and keeps the alphabet. -/
def Obligations.SetpadInstallsPad : Prop :=
  ∀ (b : Byte) (s : State), invEntry s.par (cfgAlpha s.cfg) b = s.par.invalid →
    ∃ t, exec (.setpad b) s = .next t ∧ endedOk t 0 ∧ cfgPE t.cfg = true ∧ cfgPad t.cfg = b ∧
      cfgAlpha t.cfg = cfgAlpha s.cfg

/-- R74: SETPAD of a symbol of the selected alphabet ends with F_CONFIG and leaves CFG as it was. -/
def Obligations.SetpadOfSymbolHalts : Prop :=
  ∀ (b : Byte) (s : State), invEntry s.par (cfgAlpha s.cfg) b ≠ s.par.invalid →
    ∃ t, exec (.setpad b) s = .next t ∧ endedFatal t .config ∧ t.cfg = s.cfg

/-- R75: CLRPAD removes the pad byte, forces PAD to 0x00 and keeps the alphabet, from every state. -/
def Obligations.ClrpadRemovesPad : Prop :=
  ∀ s : State, ∃ t, exec .clrpad s = .next t ∧ endedOk t 0 ∧ cfgPE t.cfg = false ∧ cfgPad t.cfg = 0#8 ∧
    cfgAlpha t.cfg = cfgAlpha s.cfg

/-- R72, R73, R75, R60: what LDCFG, SETPAD and CLRPAD leave unchanged: everything but CFG, STATUS and the cleared result
registers. -/
def Obligations.ConfigCommandsFrame : Prop :=
  ∀ (i : Instr) (s t : State), (i = .clrpad ∨ (∃ imm, i = .ldcfg imm) ∨ ∃ b, i = .setpad b) → exec i s = .next t →
    sameInputs s t ∧ t.draws = s.draws ∧ t.res = 0 ∧ t.errpos = 0 ∧ t.errbyte = 0#8 ∧
      (∀ i, ibufByte t i = ibufByte s i) ∧ obufSameFrom s t 0

/-- R71: the data commands read CFG and never write it. -/
def Obligations.DataCommandsKeepCfg : Prop :=
  ∀ (i : Instr) (s t : State), (i = .encsz ∨ i = .decsz ∨ i = .enc ∨ i = .padd ∨ i = .dec) → exec i s = .next t →
    t.cfg = s.cfg

/-- R76: every legal configuration is reached from every state by LDCFG and then SETPAD or CLRPAD. -/
def Obligations.EveryConfigurationReachable : Prop :=
  ∀ (s : State) (c : BitVec 11), s.par.wf → cfgLegal s.par c →
    ∃ (imm : Byte) (i : Instr) (t u : State), (Instr.ldcfg imm).wellFormed = true ∧ (i = .clrpad ∨ ∃ b, i = .setpad b) ∧
      exec (.ldcfg imm) s = .next t ∧ exec i t = .next u ∧ u.phase = .idle ∧ u.cfg = c

/-! ## Size Calculator -/

/-- R80, R81: ENCSZ returns `((n+4)/5)*8` in a padded and `(8n+4)/5` in an unpadded configuration, up to the thresholds. -/
def Obligations.EncszReturnsSize : Prop :=
  ∀ s : State, s.par.wf →
    (cfgPE s.cfg = true → s.arg0 ≤ 5 * 2 ^ (s.par.lenW - 3) - 5 →
      ∃ t, exec .encsz s = .next t ∧ endedOk t ((s.arg0 + 4) / 5 * 8)) ∧
    (cfgPE s.cfg = false → s.arg0 ≤ 2 ^ (s.par.lenW - 3) - 1 →
      ∃ t, exec .encsz s = .next t ∧ endedOk t ((8 * s.arg0 + 4) / 5))

/-- R80, R140: above the thresholds ENCSZ ends with F_OVERFLOW. -/
def Obligations.EncszOverflowHalts : Prop :=
  ∀ s : State, s.par.wf →
    (cfgPE s.cfg = true → 5 * 2 ^ (s.par.lenW - 3) - 5 < s.arg0 → ∃ t, exec .encsz s = .next t ∧ endedFatal t .overflow) ∧
    (cfgPE s.cfg = false → 2 ^ (s.par.lenW - 3) - 1 < s.arg0 → ∃ t, exec .encsz s = .next t ∧ endedFatal t .overflow)

/-- R82, R83: DECSZ returns `(m/8)*5` in a padded configuration, for every LEN_W-bit `m`, and `(5m)/8` in an unpadded one up to
its threshold. -/
def Obligations.DecszReturnsSize : Prop :=
  ∀ s : State, s.arg0 < 2 ^ s.par.lenW →
    (cfgPE s.cfg = true → ∃ t, exec .decsz s = .next t ∧ endedOk t (s.arg0 / 8 * 5)) ∧
    (cfgPE s.cfg = false → s.arg0 ≤ (2 ^ s.par.lenW - 1) / 5 → ∃ t, exec .decsz s = .next t ∧ endedOk t (5 * s.arg0 / 8))

/-- R82, R140: in an unpadded configuration DECSZ ends with F_OVERFLOW above its threshold. -/
def Obligations.DecszOverflowHalts : Prop :=
  ∀ s : State, cfgPE s.cfg = false → (2 ^ s.par.lenW - 1) / 5 < s.arg0 →
    ∃ t, exec .decsz s = .next t ∧ endedFatal t .overflow

/-- R81, R83, R60: ENCSZ and DECSZ change STATUS and the result registers only. -/
def Obligations.SizeCommandsFrame : Prop :=
  ∀ (i : Instr) (s t : State), (i = .encsz ∨ i = .decsz) → exec i s = .next t →
    sameInputs s t ∧ t.cfg = s.cfg ∧ t.draws = s.draws ∧ t.errpos = 0 ∧ t.errbyte = 0#8 ∧
      (∀ i, ibufByte t i = ibufByte s i) ∧ obufSameFrom s t 0

/-- R85: wherever neither overflows, `decoded_size(encoded_size(n))` is at least `n`, and equal to it in an unpadded
configuration; `encoded_size` does not decrease. -/
def Obligations.SizeBounds : Prop :=
  ∀ (w : Nat) (pe : Bool) (n v : Nat), encodedSize w pe n = some v →
    (∀ u, decodedSize w pe v = some u → n ≤ u ∧ (pe = false → u = n)) ∧
    (∀ n' v', n ≤ n' → encodedSize w pe n' = some v' → v ≤ v')

/-! ## ENC -/

/-- R90, R92, R93, R89: where its checks pass, ENC succeeds with RES = `encoded_size`, and symbol `k` of full group `g` is
`SYM[a][(V >> (35-5k)) & 0x1F]` at index `8g + k`, for `V` the big-endian value of the group's five bytes. -/
def Obligations.EncWritesFullGroups : Prop :=
  ∀ (s : State) (size : Nat), s.arg0 ≤ s.par.ibufSize → s.arg1 ≤ s.par.obufSize →
    encodedSize s.par.lenW (cfgPE s.cfg) s.arg0 = some size → size ≤ s.arg1 →
    ∃ t, exec .enc s = .next t ∧ endedOk t size ∧
      ∀ g k, g < s.arg0 / 5 → k < 8 →
        obufByte t (8 * g + k) = symEntry s.par (cfgAlpha s.cfg) (BitVec.ofNat 5
          (((ibufByte s (5 * g)).toNat * 2 ^ 32 + (ibufByte s (5 * g + 1)).toNat * 2 ^ 24 +
            (ibufByte s (5 * g + 2)).toNat * 2 ^ 16 + (ibufByte s (5 * g + 3)).toNat * 2 ^ 8 +
            (ibufByte s (5 * g + 4)).toNat) / 2 ^ (35 - 5 * k)))

/-- R95, R96, R98, R99: the partial group of `r` bytes, missing bytes taken as zero, gives `(8r+4)/5` symbols from index `8q` on,
and in a padded configuration the pad byte follows up to index `8q + 7`. -/
def Obligations.EncWritesPartialGroup : Prop :=
  ∀ (s : State) (size q r : Nat), s.arg0 ≤ s.par.ibufSize → s.arg1 ≤ s.par.obufSize →
    encodedSize s.par.lenW (cfgPE s.cfg) s.arg0 = some size → size ≤ s.arg1 → s.arg0 = 5 * q + r → 0 < r → r < 5 →
    ∃ t, exec .enc s = .next t ∧
      (∀ k, k < (8 * r + 4) / 5 →
        obufByte t (8 * q + k) = symEntry s.par (cfgAlpha s.cfg) (BitVec.ofNat 5
          (((List.range r).map fun i => (ibufByte s (5 * q + i)).toNat * 2 ^ (32 - 8 * i)).sum / 2 ^ (35 - 5 * k)))) ∧
      (cfgPE s.cfg = true → ∀ k, (8 * r + 4) / 5 ≤ k → k < 8 → obufByte t (8 * q + k) = cfgPad s.cfg)

/-- R100: where ENC succeeds RES is `8q`, `8q + 8` or `8q + c(r)`, and that count equals `encoded_size` wherever `encoded_size`
does not overflow. -/
def Obligations.EncCountIsEncodedSize : Prop :=
  (∀ s t : State, exec .enc s = .next t → t.phase = .idle →
    t.res = 8 * (s.arg0 / 5) +
      (if s.arg0 % 5 = 0 then 0 else if cfgPE s.cfg then 8 else (8 * (s.arg0 % 5) + 4) / 5)) ∧
  (∀ (w : Nat) (pe : Bool) (n size : Nat), encodedSize w pe n = some size →
    size = 8 * (n / 5) + (if n % 5 = 0 then 0 else if pe then 8 else (8 * (n % 5) + 4) / 5))

/-- R105: ENC ends in exactly one of four ways, decided in this order, and in the three fatal ones OBUF is untouched; the overflow
cannot happen behind the range check where IBUF_SIZE is at most `2^(LEN_W-3) - 1`, as it is with the default parameters. -/
def Obligations.EncEndsOneOfFourWays : Prop :=
  (∀ s : State, ∃ t, exec .enc s = .next t ∧
    (if s.par.ibufSize < s.arg0 ∨ s.par.obufSize < s.arg1 then endedFatal t .bufRange ∧ obufSameFrom s t 0
     else match encodedSize s.par.lenW (cfgPE s.cfg) s.arg0 with
      | none => endedFatal t .overflow ∧ obufSameFrom s t 0
      | some size => if s.arg1 < size then endedFatal t .outTooSmall ∧ obufSameFrom s t 0 else endedOk t size)) ∧
  (∀ s : State, s.par.wf → s.par.ibufSize ≤ 2 ^ (s.par.lenW - 3) - 1 → s.arg0 ≤ s.par.ibufSize →
    encodedSize s.par.lenW (cfgPE s.cfg) s.arg0 ≠ none) ∧
  State.reset.par.ibufSize ≤ 2 ^ (State.reset.par.lenW - 3) - 1

/-- R101: what ENC leaves unchanged: OBUF from index RES on, the whole of it where ENC halts, IBUF, CFG, ARG0 and ARG1. -/
def Obligations.EncFrame : Prop :=
  ∀ s t : State, exec .enc s = .next t →
    sameInputs s t ∧ t.cfg = s.cfg ∧ t.draws = s.draws ∧ t.errpos = 0 ∧ t.errbyte = 0#8 ∧
      (∀ i, ibufByte t i = ibufByte s i) ∧ obufSameFrom s t (textLength (cfgPE s.cfg) s.arg0) ∧ obufSameFrom s t t.res

/-! ## PADD -/

/-- R103, R98: where its checks pass, PADD writes 0, 6, 4, 3 or 1 pad bytes at index 0 in a padded configuration and returns
their number; in an unpadded configuration it writes nothing and returns 0. -/
def Obligations.PaddWritesPads : Prop :=
  ∀ (s : State) (cnt : Nat), s.arg1 ≤ s.par.obufSize → [0, 6, 4, 3, 1][s.arg0 % 5]? = some cnt →
    (cfgPE s.cfg = true → cnt ≤ s.arg1 → ∃ t, exec .padd s = .next t ∧ endedOk t cnt ∧
      ∀ k, k < cnt → obufByte t k = cfgPad s.cfg) ∧
    (cfgPE s.cfg = false → ∃ t, exec .padd s = .next t ∧ endedOk t 0 ∧ obufSameFrom s t 0)

/-- R103: where PADD halts: F_BUF_RANGE first, then in a padded configuration F_OUT_TOO_SMALL. -/
def Obligations.PaddHalts : Prop :=
  ∀ s : State,
    (s.par.obufSize < s.arg1 → ∃ t, exec .padd s = .next t ∧ endedFatal t .bufRange ∧ obufSameFrom s t 0) ∧
    (∀ cnt, s.arg1 ≤ s.par.obufSize → cfgPE s.cfg = true → [0, 6, 4, 3, 1][s.arg0 % 5]? = some cnt → s.arg1 < cnt →
      ∃ t, exec .padd s = .next t ∧ endedFatal t .outTooSmall ∧ obufSameFrom s t 0)

/-- R103, R60: what PADD leaves unchanged: OBUF after the pad bytes, the whole of it in an unpadded configuration or where PADD
halts, IBUF, CFG, ARG0 and ARG1. -/
def Obligations.PaddFrame : Prop :=
  ∀ s t : State, exec .padd s = .next t →
    sameInputs s t ∧ t.cfg = s.cfg ∧ t.draws = s.draws ∧ t.errpos = 0 ∧ t.errbyte = 0#8 ∧
      (∀ i, ibufByte t i = ibufByte s i) ∧ obufSameFrom s t (padCount (s.arg0 % 5)) ∧ obufSameFrom s t t.res

/-! ## DEC -/

/-- R107, R112, R116, R118, R121: a text whose checks pass decodes: RES = `5c + nb` with `nb = (5 ns)/8`, byte `i` of body chunk `j`
is `(V >> (32-8i)) & 0xFF` at index `5j + i`, and so are the `nb` bytes of the tail, whose unconsumed symbols are 0. -/
def Obligations.DecWritesDecodedBytes : Prop :=
  ∀ (s : State) (c ns : Nat), decContract s → (s.arg0 % 8 ≠ 1 ∧ s.arg0 % 8 ≠ 3 ∧ s.arg0 % 8 ≠ 6) → consumesTo s c ns →
    allSymbols s (8 * c + ns) → (ns ≠ 1 ∧ ns ≠ 3 ∧ ns ≠ 6) → 5 * c + 5 * ns / 8 ≤ s.arg1 →
    ∃ t, exec .dec s = .next t ∧ endedOk t (5 * c + 5 * ns / 8) ∧
      (∀ j i, j < c → i < 5 → (obufByte t (5 * j + i)).toNat =
        ((List.range 8).map fun k => textSymbol s (8 * j + k) * 2 ^ (35 - 5 * k)).sum / 2 ^ (32 - 8 * i) % 256) ∧
      (∀ i, i < 5 * ns / 8 → (obufByte t (5 * c + i)).toNat =
        ((List.range ns).map fun k => textSymbol s (8 * c + k) * 2 ^ (35 - 5 * k)).sum / 2 ^ (32 - 8 * i) % 256)

/-- R109, R137: where the contract holds and the length modulo 8 is 1, 3 or 6, DEC ends with ERR_LENGTH, whatever the alphabet, the
pad setting and the bytes, and OBUF is untouched (R125 (b)). -/
def Obligations.DecRejectsLength : Prop :=
  ∀ s : State, decContract s → (s.arg0 % 8 = 1 ∨ s.arg0 % 8 = 3 ∨ s.arg0 % 8 = 6) →
    ∃ t, exec .dec s = .next t ∧ endedError t .errLength 0 0#8 ∧ obufSameFrom s t 0

/-- R111, R114, R115: the first consumed byte that is no symbol ends DEC with ERR_BYTE, its 0-based position and its value; in the
body the pad byte is no exception, in the tail it ends consumption. -/
def Obligations.DecReportsInvalidByte : Prop :=
  ∀ (s : State) (c ns pos : Nat), decContract s → (s.arg0 % 8 ≠ 1 ∧ s.arg0 % 8 ≠ 3 ∧ s.arg0 % 8 ≠ 6) → consumesTo s c ns →
    pos < 8 * c + ns → allSymbols s pos → invLookup s.par (cfgAlpha s.cfg) (ibufByte s pos) = none →
    ∃ t, exec .dec s = .next t ∧ endedError t .errByte pos (ibufByte s pos)

/-- R119: where the tail holds 1, 3 or 6 symbols before its first pad byte, all of them valid, DEC ends with ERR_LENGTH. The outcome
is the spec's decision D20 (log 8). -/
def Obligations.DecRejectsTailCount : Prop :=
  ∀ (s : State) (c ns : Nat), decContract s → (s.arg0 % 8 ≠ 1 ∧ s.arg0 % 8 ≠ 3 ∧ s.arg0 % 8 ≠ 6) → consumesTo s c ns →
    allSymbols s (8 * c + ns) → (ns = 1 ∨ ns = 3 ∨ ns = 6) →
    ∃ t, exec .dec s = .next t ∧ endedError t .errLength 0 0#8

/-- R124, R141: where the decoded bytes do not fit below ARG1 although `decoded_size` does, DEC ends with F_OUT_OVERRUN; this needs a
padded configuration and a length that is no multiple of 8. -/
def Obligations.DecOverrunHalts : Prop :=
  ∀ (s : State) (c ns : Nat), decContract s → (s.arg0 % 8 ≠ 1 ∧ s.arg0 % 8 ≠ 3 ∧ s.arg0 % 8 ≠ 6) → consumesTo s c ns →
    allSymbols s (8 * c + ns) → (ns ≠ 1 ∧ ns ≠ 3 ∧ ns ≠ 6) → s.arg1 < 5 * c + 5 * ns / 8 →
    (∃ t, exec .dec s = .next t ∧ endedFatal t .outOverrun) ∧ cfgPE s.cfg = true ∧ s.arg0 % 8 ≠ 0

/-- R123 (1) to (3): where the contract is broken DEC halts with the first cause in this order, before anything is written. -/
def Obligations.DecContractBreachHalts : Prop :=
  ∀ s : State,
    (s.par.ibufSize < s.arg0 ∨ s.par.obufSize < s.arg1 →
      ∃ t, exec .dec s = .next t ∧ endedFatal t .bufRange ∧ obufSameFrom s t 0) ∧
    (s.arg0 ≤ s.par.ibufSize → s.arg1 ≤ s.par.obufSize → decodedSize s.par.lenW (cfgPE s.cfg) s.arg0 = none →
      ∃ t, exec .dec s = .next t ∧ endedFatal t .overflow ∧ obufSameFrom s t 0) ∧
    (∀ size, s.arg0 ≤ s.par.ibufSize → s.arg1 ≤ s.par.obufSize →
      decodedSize s.par.lenW (cfgPE s.cfg) s.arg0 = some size → s.arg1 < size →
      ∃ t, exec .dec s = .next t ∧ endedFatal t .outTooSmall ∧ obufSameFrom s t 0)

/-- R125, R49: what DEC leaves unchanged: OBUF from index ARG1 on, all of OBUF for the empty text (R107, log 9) and where a
check made before any write fails, IBUF, CFG, ARG0 and ARG1. -/
def Obligations.DecFrame : Prop :=
  ∀ s t : State, exec .dec s = .next t →
    sameInputs s t ∧ t.cfg = s.cfg ∧ (∀ i, ibufByte t i = ibufByte s i) ∧ obufSameFrom s t s.arg1 ∧
      (s.arg0 = 0 → obufSameFrom s t 0) ∧
      (∀ c, t.phase = .halted c → c ≠ .outOverrun → obufSameFrom s t 0) ∧
      (t.code = .errLength → (s.arg0 % 8 = 1 ∨ s.arg0 % 8 = 3 ∨ s.arg0 % 8 = 6) → obufSameFrom s t 0)

/-- R128: where the contract holds, with room for the tail of a padded text of odd length, DEC ends with OK, ERR_LENGTH or ERR_BYTE
in PHASE IDLE, whatever the bytes of the text. -/
def Obligations.DecTotality : Prop :=
  ∀ s : State, decContract s → (cfgPE s.cfg = true → s.arg0 % 8 ≠ 0 → 5 * (s.arg0 / 8) + 4 ≤ s.arg1) →
    ∃ t, exec .dec s = .next t ∧ t.phase = .idle ∧ (t.code = .ok ∨ t.code = .errLength ∨ t.code = .errByte)

/-- R84: the count of a successful DEC against `decoded_size`: equal to it in an unpadded configuration, at most `5m/8` in a padded
one where `m` is a multiple of 8, and at most 4 bytes above it in a padded one otherwise. -/
def Obligations.DecCountAgainstSize : Prop :=
  ∀ s t : State, exec .dec s = .next t → t.phase = .idle → t.code = .ok →
    (cfgPE s.cfg = false → decodedSize s.par.lenW false s.arg0 = some t.res) ∧
    (cfgPE s.cfg = true → s.arg0 % 8 = 0 → t.res ≤ 5 * s.arg0 / 8) ∧
    (cfgPE s.cfg = true → s.arg0 % 8 ≠ 0 → t.res ≤ 5 * (s.arg0 / 8) + 4)

/-- R117: what follows the first pad byte of the tail changes nothing: with another IBUF that agrees up to that byte, DEC ends in
the same state but for IBUF. -/
def Obligations.DecIgnoresBytesAfterPad : Prop :=
  ∀ (s t : State) (m : Memory) (c ns : Nat), consumesTo s c ns → 8 * c + ns < s.arg0 →
    (∀ i, i ≤ 8 * c + ns → ibufByte { s with ibuf := m } i = ibufByte s i) →
    exec .dec s = .next t → exec .dec { s with ibuf := m } = .next { t with ibuf := m }

/-! ## Rules of the whole machine -/

/-- The invariant holds at reset. -/
def Obligations.ResetMeetsInvariant : Prop := State.reset.Inv

/-- R24, R26, R27, R28, R17, R134: every step keeps the invariant: the buffers stay canonical and inside their sizes, CFG stays a
legal configuration, the registers stay LEN_W-bit values, and BUSY and HALTED show cleared results. -/
def Obligations.StepKeepsInvariant : Prop :=
  ∀ s t : State, s.Inv → step s = .next t → t.Inv

/-- R49, R15, R16, R27, R28: no command writes IBUF, ARG0 or ARG1, and none writes OBUF at an index from ARG1 on. -/
def Obligations.WritesAreConfined : Prop :=
  ∀ (i : Instr) (s t : State), exec i s = .next t →
    t.ibuf = s.ibuf ∧ t.arg0 = s.arg0 ∧ t.arg1 = s.arg1 ∧ obufSameFrom s t s.arg1

/-- R132: how a command can end: only DEC reports an error, only SETPAD raises F_CONFIG, and so on; no command raises
F_ILLEGAL_CMD and none stays BUSY. -/
def Obligations.CommandEndings : Prop :=
  ∀ (i : Instr) (s t : State), s.arg0 < 2 ^ s.par.lenW → exec i s = .next t →
    (∀ w k, t.phase ≠ .busy w k) ∧
    (t.code ≠ .ok → i = .dec) ∧
    (t.phase = .halted .overflow → i = .encsz ∨ i = .enc ∨ ((i = .decsz ∨ i = .dec) ∧ cfgPE s.cfg = false)) ∧
    (t.phase = .halted .outTooSmall → i = .enc ∨ i = .padd ∨ i = .dec) ∧
    (t.phase = .halted .outOverrun → i = .dec ∧ cfgPE s.cfg = true) ∧
    (t.phase = .halted .config → ∃ b, i = .setpad b) ∧
    (t.phase = .halted .bufRange → i = .enc ∨ i = .padd ∨ i = .dec) ∧
    t.phase ≠ .halted .illegalCmd

/-- R28, R47: no command's result depends on what OBUF held: with another OBUF the same command ends in the same state but for
OBUF, and every byte below RES is the same. -/
def Obligations.ResultsIgnoreObuf : Prop :=
  ∀ (i : Instr) (s t : State) (m : Memory), exec i s = .next t →
    ∃ m' : Memory, exec i { s with obuf := m } = .next { t with obuf := m' } ∧
      ((i = .enc ∨ i = .padd ∨ i = .dec) → ∀ j, j < t.res → obufByte { t with obuf := m' } j = obufByte t j)

/-- R127: the round trip. Where ENC succeeds on the bytes of `s`, DEC succeeds on a block with the same configuration whose IBUF
holds the text ENC left, and gives the bytes back. -/
def Obligations.DecodeInvertsEncode : Prop :=
  ∀ (s t u : State), s.par.wf → cfgLegal s.par s.cfg → exec .enc s = .next t → t.phase = .idle →
    u.par = s.par → u.cfg = s.cfg → u.arg0 = t.res → (∀ i, i < t.res → ibufByte u i = obufByte t i) → decContract u →
    ∃ v, exec .dec u = .next v ∧ endedOk v s.arg0 ∧ ∀ i, i < s.arg0 → obufByte v i = ibufByte s i

/-- R104 (a), R77: the text of a padded configuration is the text without padding followed by the bytes PADD writes. -/
def Obligations.PaddedTextIsTextThenPads : Prop :=
  ∀ (s t t0 u : State), cfgPE s.cfg = true → exec .enc s = .next t → t.phase = .idle →
    exec .enc { s with cfg := makeCfg (cfgAlpha s.cfg) none } = .next t0 → t0.phase = .idle → exec .padd s = .next u →
    t.res = t0.res + u.res ∧ (∀ j, j < t0.res → obufByte t j = obufByte t0 j) ∧
      (∀ k, k < u.res → obufByte t (t0.res + k) = obufByte u k)

/-- R104 (b): block independence of the encoder: the text of `X Y`, where the length of `X` is a multiple of 5, is the text of `X`
followed by the text of `Y`. -/
def Obligations.EncBlocksAreIndependent : Prop :=
  ∀ (s x y ts tx ty : State), x.par = s.par → y.par = s.par → x.cfg = s.cfg → y.cfg = s.cfg → x.arg0 % 5 = 0 →
    s.arg0 = x.arg0 + y.arg0 → (∀ i, i < x.arg0 → ibufByte x i = ibufByte s i) →
    (∀ i, i < y.arg0 → ibufByte y i = ibufByte s (x.arg0 + i)) →
    exec .enc s = .next ts → exec .enc x = .next tx → exec .enc y = .next ty →
    ts.phase = .idle → tx.phase = .idle → ty.phase = .idle →
    ts.res = tx.res + ty.res ∧ (∀ j, j < tx.res → obufByte ts j = obufByte tx j) ∧
      (∀ j, j < ty.res → obufByte ts (tx.res + j) = obufByte ty j)

/-- R102, R8: the encoder run in its three stages, batched or not, emits byte for byte the text of R90. -/
def Obligations.StagedEncoderGivesSameText : Prop :=
  ∀ (batch : Nat) (sym : Symbol → Byte) (pad : Option Byte) (T : Nat → Byte) (n : Nat),
    stagedText batch sym pad T n =
      (List.range (textLength pad.isSome n)).map (textByte sym (pad.getD 0#8) T n)

/-- R126, R49, R8: the decoder's writes run in stages, with any number of batches whose slack stays below `cap` and any values of
the slack bytes (log 7), leave the same bytes below the count and nothing at or above `cap`. -/
def Obligations.StagedDecoderGivesSameBytes : Prop :=
  ∀ (batches c nb cap len : Nat) (slack : Nat → BitVec 24) (inv : Byte → Option Symbol) (T : Nat → Byte) (m : Memory),
    4 * batches ≤ c → nb ≤ 5 → 5 * c + nb ≤ cap → (batches ≠ 0 → 5 * (4 * batches - 1) + 8 ≤ cap) →
    (∀ j, j < 5 * c + nb →
      Memory.read (stagedDecode batches slack inv T len c nb m) j = some (decodedByte inv T len j)) ∧
    (∀ j, cap ≤ j → Memory.read (stagedDecode batches slack inv T len c nb m) j = Memory.read m j)

/-- R69, R11: what the pseudo-instructions do from IDLE, however long each command takes (the windows and the port's one access
are the model's, log 5 and log 16). (1) LDSTD to LDZB and WITHPAD issue their one command. (2) ENCODE gives the text of the input. (3)
Its expansion stops at the sizing command where that halts, before ARG1 is written, and (4) at ENC where that halts. (5) DECODE gives
what a DEC with the sized capacity gives: the bytes where CODE = OK, else CODE, ERRPOS and ERRBYTE, and nothing where it halts. (6) Its
expansion stops where its sizing command halts. (7), (8), (9) ENCODE_DEFAULT and (10) DECODE_DEFAULT do the same under the
Standard configuration: the text, the stop at the sizing command, the stop at ENC; and for DECODE_DEFAULT what DEC gives (its sizing
never overflows, R82). -/
def Obligations.HostCallsGiveResults : Prop :=
  ∀ (window : Instr → Nat) (s : State), s.par.wf → s.phase = .idle →
    (∀ p ∈ [(HostCall.ldstd, Instr.ldcfg 0#8), (.ldhex, .ldcfg 1#8), (.ldcrk, .ldcfg 2#8), (.ldzb, .ldcfg 3#8),
        (.withPad none, .clrpad)] ++ (List.range 256).map (fun b => (.withPad (some (BitVec.ofNat 8 b)), .setpad (BitVec.ofNat 8 b))),
      ∃ t, runCall window p.1 s = .next ⟨.issued, t⟩ ∧ t.phase = .busy (encode p.2).toNat (window p.2)) ∧
    (∀ n size, n ≤ s.par.ibufSize → encodedSize s.par.lenW (cfgPE s.cfg) n = some size → size ≤ s.par.obufSize →
      ∃ t, runCall window (.encode n) s = .next ⟨.text ((List.range size).map
          (textByte (symEntry s.par (cfgAlpha s.cfg)) (cfgPad s.cfg) (ibufByte s) n)), t⟩ ∧
        endedOk t size ∧ t.cfg = s.cfg ∧ t.arg0 = n ∧ t.arg1 = size) ∧
    (∀ n, n < 2 ^ s.par.lenW → encodedSize s.par.lenW (cfgPE s.cfg) n = none →
      ∃ t, runCall window (.encode n) s = .next ⟨.stopped, t⟩ ∧ endedFatal t .overflow ∧ t.arg1 = s.arg1) ∧
    (∀ n size, n < 2 ^ s.par.lenW → encodedSize s.par.lenW (cfgPE s.cfg) n = some size →
      s.par.ibufSize < n ∨ s.par.obufSize < size →
      ∃ t, runCall window (.encode n) s = .next ⟨.stopped, t⟩ ∧ endedFatal t .bufRange) ∧
    (∀ m size v, m < 2 ^ s.par.lenW → decodedSize s.par.lenW (cfgPE s.cfg) m = some size →
      exec .dec { s with arg0 := m, arg1 := size } = .next v →
      ∃ t, runCall window (.decode m) s = .next ⟨decodeOutcome v, t⟩ ∧ sameEnding t v ∧ t.cfg = s.cfg) ∧
    (∀ m, m < 2 ^ s.par.lenW → decodedSize s.par.lenW (cfgPE s.cfg) m = none →
      ∃ t, runCall window (.decode m) s = .next ⟨.stopped, t⟩ ∧ endedFatal t .overflow ∧ t.arg1 = s.arg1) ∧
    (∀ n size, n ≤ s.par.ibufSize → encodedSize s.par.lenW true n = some size → size ≤ s.par.obufSize →
      ∃ t, runCall window (.encodeDefault n) s = .next ⟨.text ((List.range size).map
          (textByte (symEntry s.par .standard) 0x3D#8 (ibufByte s) n)), t⟩ ∧ endedOk t size ∧ t.cfg = 0x13D#11) ∧
    (∀ n, n < 2 ^ s.par.lenW → encodedSize s.par.lenW true n = none →
      ∃ t, runCall window (.encodeDefault n) s = .next ⟨.stopped, t⟩ ∧ endedFatal t .overflow ∧ t.arg1 = s.arg1 ∧
        t.cfg = 0x13D#11) ∧
    (∀ n size, n < 2 ^ s.par.lenW → encodedSize s.par.lenW true n = some size →
      s.par.ibufSize < n ∨ s.par.obufSize < size →
      ∃ t, runCall window (.encodeDefault n) s = .next ⟨.stopped, t⟩ ∧ endedFatal t .bufRange ∧ t.cfg = 0x13D#11) ∧
    (∀ m size v, m < 2 ^ s.par.lenW → decodedSize s.par.lenW true m = some size →
      exec .dec { s with cfg := 0x13D#11, arg0 := m, arg1 := size } = .next v →
      ∃ t, runCall window (.decodeDefault m) s = .next ⟨decodeOutcome v, t⟩ ∧ sameEnding t v ∧ t.cfg = 0x13D#11)
end

