-- ==== Sys2Proof/Laws/State.lean ====
section
/-! SUPPORT. One lemma per field per update of the state, so that no later proof unfolds a record update. -/

namespace Sys2Proof.Machine

variable (s : State)

@[simp] theorem State.setCfg_par (c : BitVec 11) : (s.setCfg c).par = s.par := rfl
@[simp] theorem State.setCfg_phase (c : BitVec 11) : (s.setCfg c).phase = s.phase := rfl
@[simp] theorem State.setCfg_code (c : BitVec 11) : (s.setCfg c).code = s.code := rfl
@[simp] theorem State.setCfg_cfg (c : BitVec 11) : (s.setCfg c).cfg = c := rfl
@[simp] theorem State.setCfg_arg0 (c : BitVec 11) : (s.setCfg c).arg0 = s.arg0 := rfl
@[simp] theorem State.setCfg_arg1 (c : BitVec 11) : (s.setCfg c).arg1 = s.arg1 := rfl
@[simp] theorem State.setCfg_res (c : BitVec 11) : (s.setCfg c).res = s.res := rfl
@[simp] theorem State.setCfg_errpos (c : BitVec 11) : (s.setCfg c).errpos = s.errpos := rfl
@[simp] theorem State.setCfg_errbyte (c : BitVec 11) : (s.setCfg c).errbyte = s.errbyte := rfl
@[simp] theorem State.setCfg_ibuf (c : BitVec 11) : (s.setCfg c).ibuf = s.ibuf := rfl
@[simp] theorem State.setCfg_obuf (c : BitVec 11) : (s.setCfg c).obuf = s.obuf := rfl
@[simp] theorem State.setCfg_port (c : BitVec 11) : (s.setCfg c).port = s.port := rfl
@[simp] theorem State.setCfg_rdata (c : BitVec 11) : (s.setCfg c).rdata = s.rdata := rfl
@[simp] theorem State.setCfg_epoch (c : BitVec 11) : (s.setCfg c).epoch = s.epoch := rfl
@[simp] theorem State.setCfg_draws (c : BitVec 11) : (s.setCfg c).draws = s.draws := rfl

@[simp] theorem State.writeObuf_par (f : Nat → Byte) (start count : Nat) : (s.writeObuf f start count).par = s.par := rfl
@[simp] theorem State.writeObuf_phase (f : Nat → Byte) (start count : Nat) : (s.writeObuf f start count).phase = s.phase := rfl
@[simp] theorem State.writeObuf_code (f : Nat → Byte) (start count : Nat) : (s.writeObuf f start count).code = s.code := rfl
@[simp] theorem State.writeObuf_cfg (f : Nat → Byte) (start count : Nat) : (s.writeObuf f start count).cfg = s.cfg := rfl
@[simp] theorem State.writeObuf_arg0 (f : Nat → Byte) (start count : Nat) : (s.writeObuf f start count).arg0 = s.arg0 := rfl
@[simp] theorem State.writeObuf_arg1 (f : Nat → Byte) (start count : Nat) : (s.writeObuf f start count).arg1 = s.arg1 := rfl
@[simp] theorem State.writeObuf_res (f : Nat → Byte) (start count : Nat) : (s.writeObuf f start count).res = s.res := rfl
@[simp] theorem State.writeObuf_errpos (f : Nat → Byte) (start count : Nat) : (s.writeObuf f start count).errpos = s.errpos := rfl
@[simp] theorem State.writeObuf_errbyte (f : Nat → Byte) (start count : Nat) : (s.writeObuf f start count).errbyte = s.errbyte := rfl
@[simp] theorem State.writeObuf_ibuf (f : Nat → Byte) (start count : Nat) : (s.writeObuf f start count).ibuf = s.ibuf := rfl
@[simp] theorem State.writeObuf_obuf (f : Nat → Byte) (start count : Nat) : (s.writeObuf f start count).obuf = Memory.writeRange s.obuf f start count := rfl
@[simp] theorem State.writeObuf_port (f : Nat → Byte) (start count : Nat) : (s.writeObuf f start count).port = s.port := rfl
@[simp] theorem State.writeObuf_rdata (f : Nat → Byte) (start count : Nat) : (s.writeObuf f start count).rdata = s.rdata := rfl
@[simp] theorem State.writeObuf_epoch (f : Nat → Byte) (start count : Nat) : (s.writeObuf f start count).epoch = s.epoch := rfl
@[simp] theorem State.writeObuf_draws (f : Nat → Byte) (start count : Nat) : (s.writeObuf f start count).draws = s.draws := rfl

@[simp] theorem State.clobberObuf_par (start stop : Nat) : (s.clobberObuf start stop).par = s.par := rfl
@[simp] theorem State.clobberObuf_phase (start stop : Nat) : (s.clobberObuf start stop).phase = s.phase := rfl
@[simp] theorem State.clobberObuf_code (start stop : Nat) : (s.clobberObuf start stop).code = s.code := rfl
@[simp] theorem State.clobberObuf_cfg (start stop : Nat) : (s.clobberObuf start stop).cfg = s.cfg := rfl
@[simp] theorem State.clobberObuf_arg0 (start stop : Nat) : (s.clobberObuf start stop).arg0 = s.arg0 := rfl
@[simp] theorem State.clobberObuf_arg1 (start stop : Nat) : (s.clobberObuf start stop).arg1 = s.arg1 := rfl
@[simp] theorem State.clobberObuf_res (start stop : Nat) : (s.clobberObuf start stop).res = s.res := rfl
@[simp] theorem State.clobberObuf_errpos (start stop : Nat) : (s.clobberObuf start stop).errpos = s.errpos := rfl
@[simp] theorem State.clobberObuf_errbyte (start stop : Nat) : (s.clobberObuf start stop).errbyte = s.errbyte := rfl
@[simp] theorem State.clobberObuf_ibuf (start stop : Nat) : (s.clobberObuf start stop).ibuf = s.ibuf := rfl
@[simp] theorem State.clobberObuf_obuf (start stop : Nat) : (s.clobberObuf start stop).obuf = Memory.writeRange s.obuf (Config.decSlack s.draws) start (stop - start) := rfl
@[simp] theorem State.clobberObuf_port (start stop : Nat) : (s.clobberObuf start stop).port = s.port := rfl
@[simp] theorem State.clobberObuf_rdata (start stop : Nat) : (s.clobberObuf start stop).rdata = s.rdata := rfl
@[simp] theorem State.clobberObuf_epoch (start stop : Nat) : (s.clobberObuf start stop).epoch = s.epoch := rfl
@[simp] theorem State.clobberObuf_draws (start stop : Nat) : (s.clobberObuf start stop).draws = s.draws + 1 := rfl

@[simp] theorem State.startCommand_par (word window : Nat) : (s.startCommand word window).par = s.par := rfl
@[simp] theorem State.startCommand_phase (word window : Nat) : (s.startCommand word window).phase = .busy word window := rfl
@[simp] theorem State.startCommand_code (word window : Nat) : (s.startCommand word window).code = .ok := rfl
@[simp] theorem State.startCommand_cfg (word window : Nat) : (s.startCommand word window).cfg = s.cfg := rfl
@[simp] theorem State.startCommand_arg0 (word window : Nat) : (s.startCommand word window).arg0 = s.arg0 := rfl
@[simp] theorem State.startCommand_arg1 (word window : Nat) : (s.startCommand word window).arg1 = s.arg1 := rfl
@[simp] theorem State.startCommand_res (word window : Nat) : (s.startCommand word window).res = 0 := rfl
@[simp] theorem State.startCommand_errpos (word window : Nat) : (s.startCommand word window).errpos = 0 := rfl
@[simp] theorem State.startCommand_errbyte (word window : Nat) : (s.startCommand word window).errbyte = 0#8 := rfl
@[simp] theorem State.startCommand_ibuf (word window : Nat) : (s.startCommand word window).ibuf = s.ibuf := rfl
@[simp] theorem State.startCommand_obuf (word window : Nat) : (s.startCommand word window).obuf = s.obuf := rfl
@[simp] theorem State.startCommand_port (word window : Nat) : (s.startCommand word window).port = s.port := rfl
@[simp] theorem State.startCommand_rdata (word window : Nat) : (s.startCommand word window).rdata = s.rdata := rfl
@[simp] theorem State.startCommand_epoch (word window : Nat) : (s.startCommand word window).epoch = s.epoch := rfl
@[simp] theorem State.startCommand_draws (word window : Nat) : (s.startCommand word window).draws = s.draws := rfl

@[simp] theorem State.done_par (v : Nat) : (s.done v).par = s.par := rfl
@[simp] theorem State.done_phase (v : Nat) : (s.done v).phase = .idle := rfl
@[simp] theorem State.done_code (v : Nat) : (s.done v).code = .ok := rfl
@[simp] theorem State.done_cfg (v : Nat) : (s.done v).cfg = s.cfg := rfl
@[simp] theorem State.done_arg0 (v : Nat) : (s.done v).arg0 = s.arg0 := rfl
@[simp] theorem State.done_arg1 (v : Nat) : (s.done v).arg1 = s.arg1 := rfl
@[simp] theorem State.done_res (v : Nat) : (s.done v).res = v := rfl
@[simp] theorem State.done_errpos (v : Nat) : (s.done v).errpos = 0 := rfl
@[simp] theorem State.done_errbyte (v : Nat) : (s.done v).errbyte = 0#8 := rfl
@[simp] theorem State.done_ibuf (v : Nat) : (s.done v).ibuf = s.ibuf := rfl
@[simp] theorem State.done_obuf (v : Nat) : (s.done v).obuf = s.obuf := rfl
@[simp] theorem State.done_port (v : Nat) : (s.done v).port = s.port := rfl
@[simp] theorem State.done_rdata (v : Nat) : (s.done v).rdata = s.rdata := rfl
@[simp] theorem State.done_epoch (v : Nat) : (s.done v).epoch = s.epoch := rfl
@[simp] theorem State.done_draws (v : Nat) : (s.done v).draws = s.draws := rfl

@[simp] theorem State.raiseError_par (c : Code) (pos : Nat) (b : Byte) : (s.raiseError c pos b).par = s.par := rfl
@[simp] theorem State.raiseError_phase (c : Code) (pos : Nat) (b : Byte) : (s.raiseError c pos b).phase = .idle := rfl
@[simp] theorem State.raiseError_code (c : Code) (pos : Nat) (b : Byte) : (s.raiseError c pos b).code = c := rfl
@[simp] theorem State.raiseError_cfg (c : Code) (pos : Nat) (b : Byte) : (s.raiseError c pos b).cfg = s.cfg := rfl
@[simp] theorem State.raiseError_arg0 (c : Code) (pos : Nat) (b : Byte) : (s.raiseError c pos b).arg0 = s.arg0 := rfl
@[simp] theorem State.raiseError_arg1 (c : Code) (pos : Nat) (b : Byte) : (s.raiseError c pos b).arg1 = s.arg1 := rfl
@[simp] theorem State.raiseError_res (c : Code) (pos : Nat) (b : Byte) : (s.raiseError c pos b).res = 0 := rfl
@[simp] theorem State.raiseError_errpos (c : Code) (pos : Nat) (b : Byte) : (s.raiseError c pos b).errpos = pos := rfl
@[simp] theorem State.raiseError_errbyte (c : Code) (pos : Nat) (b : Byte) : (s.raiseError c pos b).errbyte = b := rfl
@[simp] theorem State.raiseError_ibuf (c : Code) (pos : Nat) (b : Byte) : (s.raiseError c pos b).ibuf = s.ibuf := rfl
@[simp] theorem State.raiseError_obuf (c : Code) (pos : Nat) (b : Byte) : (s.raiseError c pos b).obuf = s.obuf := rfl
@[simp] theorem State.raiseError_port (c : Code) (pos : Nat) (b : Byte) : (s.raiseError c pos b).port = s.port := rfl
@[simp] theorem State.raiseError_rdata (c : Code) (pos : Nat) (b : Byte) : (s.raiseError c pos b).rdata = s.rdata := rfl
@[simp] theorem State.raiseError_epoch (c : Code) (pos : Nat) (b : Byte) : (s.raiseError c pos b).epoch = s.epoch := rfl
@[simp] theorem State.raiseError_draws (c : Code) (pos : Nat) (b : Byte) : (s.raiseError c pos b).draws = s.draws := rfl

@[simp] theorem State.raiseFatal_par (cause : FCause) : (s.raiseFatal cause).par = s.par := rfl
@[simp] theorem State.raiseFatal_phase (cause : FCause) : (s.raiseFatal cause).phase = .halted cause := rfl
@[simp] theorem State.raiseFatal_code (cause : FCause) : (s.raiseFatal cause).code = .ok := rfl
@[simp] theorem State.raiseFatal_cfg (cause : FCause) : (s.raiseFatal cause).cfg = s.cfg := rfl
@[simp] theorem State.raiseFatal_arg0 (cause : FCause) : (s.raiseFatal cause).arg0 = s.arg0 := rfl
@[simp] theorem State.raiseFatal_arg1 (cause : FCause) : (s.raiseFatal cause).arg1 = s.arg1 := rfl
@[simp] theorem State.raiseFatal_res (cause : FCause) : (s.raiseFatal cause).res = 0 := rfl
@[simp] theorem State.raiseFatal_errpos (cause : FCause) : (s.raiseFatal cause).errpos = 0 := rfl
@[simp] theorem State.raiseFatal_errbyte (cause : FCause) : (s.raiseFatal cause).errbyte = 0#8 := rfl
@[simp] theorem State.raiseFatal_ibuf (cause : FCause) : (s.raiseFatal cause).ibuf = s.ibuf := rfl
@[simp] theorem State.raiseFatal_obuf (cause : FCause) : (s.raiseFatal cause).obuf = s.obuf := rfl
@[simp] theorem State.raiseFatal_port (cause : FCause) : (s.raiseFatal cause).port = s.port := rfl
@[simp] theorem State.raiseFatal_rdata (cause : FCause) : (s.raiseFatal cause).rdata = s.rdata := rfl
@[simp] theorem State.raiseFatal_epoch (cause : FCause) : (s.raiseFatal cause).epoch = s.epoch := rfl
@[simp] theorem State.raiseFatal_draws (cause : FCause) : (s.raiseFatal cause).draws = s.draws := rfl

@[simp] theorem State.resetEvent_par : (s.resetEvent).par = s.par := rfl
@[simp] theorem State.resetEvent_phase : (s.resetEvent).phase = .idle := rfl
@[simp] theorem State.resetEvent_code : (s.resetEvent).code = .ok := rfl
@[simp] theorem State.resetEvent_cfg : (s.resetEvent).cfg = 0x13D#11 := rfl
@[simp] theorem State.resetEvent_arg0 : (s.resetEvent).arg0 = 0 := rfl
@[simp] theorem State.resetEvent_arg1 : (s.resetEvent).arg1 = 0 := rfl
@[simp] theorem State.resetEvent_res : (s.resetEvent).res = 0 := rfl
@[simp] theorem State.resetEvent_errpos : (s.resetEvent).errpos = 0 := rfl
@[simp] theorem State.resetEvent_errbyte : (s.resetEvent).errbyte = 0#8 := rfl
@[simp] theorem State.resetEvent_ibuf : (s.resetEvent).ibuf = [] := rfl
@[simp] theorem State.resetEvent_obuf : (s.resetEvent).obuf = [] := rfl
@[simp] theorem State.resetEvent_port : (s.resetEvent).port = s.port := rfl
@[simp] theorem State.resetEvent_rdata : (s.resetEvent).rdata = none := rfl
@[simp] theorem State.resetEvent_epoch : (s.resetEvent).epoch = s.draws + 1 := rfl
@[simp] theorem State.resetEvent_draws : (s.resetEvent).draws = s.draws + 1 := rfl

@[simp] theorem State.answer_par (v : Option Nat) : (s.answer v).par = s.par := rfl
@[simp] theorem State.answer_phase (v : Option Nat) : (s.answer v).phase = s.phase := rfl
@[simp] theorem State.answer_code (v : Option Nat) : (s.answer v).code = s.code := rfl
@[simp] theorem State.answer_cfg (v : Option Nat) : (s.answer v).cfg = s.cfg := rfl
@[simp] theorem State.answer_arg0 (v : Option Nat) : (s.answer v).arg0 = s.arg0 := rfl
@[simp] theorem State.answer_arg1 (v : Option Nat) : (s.answer v).arg1 = s.arg1 := rfl
@[simp] theorem State.answer_res (v : Option Nat) : (s.answer v).res = s.res := rfl
@[simp] theorem State.answer_errpos (v : Option Nat) : (s.answer v).errpos = s.errpos := rfl
@[simp] theorem State.answer_errbyte (v : Option Nat) : (s.answer v).errbyte = s.errbyte := rfl
@[simp] theorem State.answer_ibuf (v : Option Nat) : (s.answer v).ibuf = s.ibuf := rfl
@[simp] theorem State.answer_obuf (v : Option Nat) : (s.answer v).obuf = s.obuf := rfl
@[simp] theorem State.answer_port (v : Option Nat) : (s.answer v).port = s.port := rfl
@[simp] theorem State.answer_rdata (v : Option Nat) : (s.answer v).rdata = v := rfl
@[simp] theorem State.answer_epoch (v : Option Nat) : (s.answer v).epoch = s.epoch := rfl
@[simp] theorem State.answer_draws (v : Option Nat) : (s.answer v).draws = s.draws := rfl

@[simp] theorem State.busyStatusRead_par : (s.busyStatusRead).par = s.par := rfl
@[simp] theorem State.busyStatusRead_phase : (s.busyStatusRead).phase = s.phase := rfl
@[simp] theorem State.busyStatusRead_code : (s.busyStatusRead).code = s.code := rfl
@[simp] theorem State.busyStatusRead_cfg : (s.busyStatusRead).cfg = s.cfg := rfl
@[simp] theorem State.busyStatusRead_arg0 : (s.busyStatusRead).arg0 = s.arg0 := rfl
@[simp] theorem State.busyStatusRead_arg1 : (s.busyStatusRead).arg1 = s.arg1 := rfl
@[simp] theorem State.busyStatusRead_res : (s.busyStatusRead).res = s.res := rfl
@[simp] theorem State.busyStatusRead_errpos : (s.busyStatusRead).errpos = s.errpos := rfl
@[simp] theorem State.busyStatusRead_errbyte : (s.busyStatusRead).errbyte = s.errbyte := rfl
@[simp] theorem State.busyStatusRead_ibuf : (s.busyStatusRead).ibuf = s.ibuf := rfl
@[simp] theorem State.busyStatusRead_obuf : (s.busyStatusRead).obuf = s.obuf := rfl
@[simp] theorem State.busyStatusRead_port : (s.busyStatusRead).port = s.port := rfl
@[simp] theorem State.busyStatusRead_rdata : (s.busyStatusRead).rdata = some (busyStatusWord s).toNat := rfl
@[simp] theorem State.busyStatusRead_epoch : (s.busyStatusRead).epoch = s.epoch := rfl
@[simp] theorem State.busyStatusRead_draws : (s.busyStatusRead).draws = s.draws + 1 := rfl

end Sys2Proof.Machine
end

