-- ==== Sys2Proof/Laws/Memory.lean ====
section
/-! SUPPORT. The laws of the byte memories: read after write, the canonical form, and the same for a range of writes. -/

namespace Sys2Proof.Machine

@[simp] theorem Memory.read_nil (x : Nat) : Memory.read [] x = none := rfl

theorem Memory.read_cons (a : Nat) (b : Byte) (m : Memory) (x : Nat) :
    Memory.read ((a, b) :: m) x = if x = a then some b else Memory.read m x := rfl

/-- Read after write, of the index written and of every other. -/
theorem Memory.read_write (m : Memory) (x : Nat) (v : Byte) (y : Nat) :
    Memory.read (Memory.write m x v) y = if y = x then some v else Memory.read m y := by
  induction m with
  | nil => simp [Memory.write, Memory.read_cons]
  | cons c m ih =>
    obtain ⟨a, b⟩ := c
    simp only [Memory.write]
    split
    · simp only [Memory.read_cons]
    · split
      · subst_vars; simp only [Memory.read_cons]; split <;> rfl
      · simp only [Memory.read_cons, ih]
        split <;> split <;> first | rfl | omega

/-- A range of writes sets exactly the indices of the range. -/
theorem Memory.read_writeRange (m : Memory) (f : Nat → Byte) (start count y : Nat) :
    Memory.read (Memory.writeRange m f start count) y =
      if start ≤ y ∧ y < start + count then some (f y) else Memory.read m y := by
  induction count with
  | zero => simp only [Memory.writeRange]; split <;> first | rfl | omega
  | succ k ih =>
    simp only [Memory.writeRange, Memory.read_write, ih]
    by_cases h : y = start + k
    · subst h; rw [if_pos rfl, if_pos (by omega)]
    · rw [if_neg h]; congr 1; apply propext; omega

theorem Memory.mem_write {m : Memory} {x : Nat} {v : Byte} {c : Host.Cell} (h : c ∈ Memory.write m x v) :
    c = (x, v) ∨ c ∈ m := by
  induction m with
  | nil => simpa [Memory.write] using h
  | cons d m ih =>
    obtain ⟨a, b⟩ := d
    simp only [Memory.write] at h
    split at h
    · simpa using h
    · split at h
      · simp only [List.mem_cons] at h ⊢; tauto
      · simp only [List.mem_cons] at h ⊢
        rcases h with h | h
        · tauto
        · rcases ih h with h | h <;> tauto

/-- A write keeps the canonical form. -/
theorem Memory.wf_write {m : Memory} (h : Memory.wf m) (x : Nat) (v : Byte) : Memory.wf (Memory.write m x v) := by
  induction m with
  | nil => simp [Memory.write, Memory.wf]
  | cons d m ih =>
    obtain ⟨a, b⟩ := d
    have ⟨h1, h2⟩ := List.pairwise_cons.mp h
    simp only [Memory.write]
    split
    · refine List.pairwise_cons.mpr ⟨fun c hc => ?_, h⟩
      rcases List.mem_cons.mp hc with rfl | hc
      · assumption
      · have := h1 c hc; simp only at this ⊢; omega
    · split
      · subst_vars; exact List.pairwise_cons.mpr ⟨h1, h2⟩
      · refine List.pairwise_cons.mpr ⟨fun c hc => ?_, ih h2⟩
        rcases Memory.mem_write hc with rfl | hc
        · simp only; omega
        · exact h1 c hc

theorem Memory.wf_writeRange {m : Memory} (h : Memory.wf m) (f : Nat → Byte) (start count : Nat) :
    Memory.wf (Memory.writeRange m f start count) := by
  induction count with
  | zero => exact h
  | succ k ih => exact Memory.wf_write ih _ _

theorem Memory.below_write {m : Memory} {size x : Nat} (h : Memory.below m size) (hx : x < size) (v : Byte) :
    Memory.below (Memory.write m x v) size := by
  intro c hc
  rcases Memory.mem_write hc with rfl | hc
  · exact hx
  · exact h c hc

theorem Memory.below_writeRange {m : Memory} {size start count : Nat} (h : Memory.below m size)
    (hr : count = 0 ∨ start + count ≤ size) (f : Nat → Byte) :
    Memory.below (Memory.writeRange m f start count) size := by
  induction count with
  | zero => exact h
  | succ k ih => exact Memory.below_write (ih (by omega)) (by omega) _

/-- OBUF after a range of writes, at every index. -/
theorem obufByte_writeObuf (s : State) (f : Nat → Byte) (start count j : Nat) :
    obufByte (s.writeObuf f start count) j = if start ≤ j ∧ j < start + count then f j else obufByte s j := by
  simp only [obufByte, State.writeObuf_obuf, State.writeObuf_epoch, Memory.read_writeRange]
  split <;> simp_all

/-- OBUF after a range became unspecified: the fresh free values inside, unchanged outside. -/
theorem obufByte_clobberObuf (s : State) (start stop j : Nat) :
    obufByte (s.clobberObuf start stop) j =
      if start ≤ j ∧ j < stop then Config.decSlack s.draws j else obufByte s j := by
  simp only [obufByte, State.clobberObuf_obuf, State.clobberObuf_epoch, Memory.read_writeRange]
  by_cases h : start ≤ j ∧ j < stop
  · rw [if_pos (by omega), if_pos h]; rfl
  · rw [if_neg (by omega), if_neg h]

/-- Reads depend on the buffers and the epoch alone. -/
theorem obufByte_congr {s t : State} (h : t.obuf = s.obuf) (e : t.epoch = s.epoch) (j : Nat) :
    obufByte t j = obufByte s j := by simp only [obufByte, h, e]

theorem ibufByte_congr {s t : State} (h : t.ibuf = s.ibuf) (e : t.epoch = s.epoch) : ibufByte t = ibufByte s := by
  funext i; simp only [ibufByte, h, e]

/-! The ends of a command and its start leave both buffers as they are. -/

@[simp] theorem obufByte_setCfg (s : State) (c : BitVec 11) : obufByte (s.setCfg c) = obufByte s := rfl
@[simp] theorem obufByte_startCommand (s : State) (word window : Nat) : obufByte (s.startCommand word window) = obufByte s := rfl
@[simp] theorem obufByte_done (s : State) (v : Nat) : obufByte (s.done v) = obufByte s := rfl
@[simp] theorem obufByte_raiseError (s : State) (c : Code) (pos : Nat) (b : Byte) : obufByte (s.raiseError c pos b) = obufByte s := rfl
@[simp] theorem obufByte_raiseFatal (s : State) (cause : FCause) : obufByte (s.raiseFatal cause) = obufByte s := rfl
@[simp] theorem obufByte_answer (s : State) (v : Option Nat) : obufByte (s.answer v) = obufByte s := rfl
@[simp] theorem ibufByte_setCfg (s : State) (c : BitVec 11) : ibufByte (s.setCfg c) = ibufByte s := rfl
@[simp] theorem ibufByte_startCommand (s : State) (word window : Nat) : ibufByte (s.startCommand word window) = ibufByte s := rfl
@[simp] theorem ibufByte_done (s : State) (v : Nat) : ibufByte (s.done v) = ibufByte s := rfl
@[simp] theorem ibufByte_raiseError (s : State) (c : Code) (pos : Nat) (b : Byte) : ibufByte (s.raiseError c pos b) = ibufByte s := rfl
@[simp] theorem ibufByte_raiseFatal (s : State) (cause : FCause) : ibufByte (s.raiseFatal cause) = ibufByte s := rfl
@[simp] theorem ibufByte_answer (s : State) (v : Option Nat) : ibufByte (s.answer v) = ibufByte s := rfl
@[simp] theorem ibufByte_writeObuf (s : State) (f : Nat → Byte) (start count : Nat) : ibufByte (s.writeObuf f start count) = ibufByte s := rfl
@[simp] theorem ibufByte_clobberObuf (s : State) (start stop : Nat) : ibufByte (s.clobberObuf start stop) = ibufByte s := rfl

end Sys2Proof.Machine
end

