-- ==== Sys2Proof/Laws/Cfg.lean ====
section
/-! SUPPORT. The laws of CFG (10_state.md R25), of the alphabet numbers, and of the ROMs (R31, R32). -/

namespace Sys2Proof.Machine

@[simp] theorem alphabetOfBits_alphabetBits (a : Alphabet) : alphabetOfBits (alphabetBits a) = a := by
  cases a <;> rfl

theorem getLsbD_makeCfg (a : Alphabet) (p : Option Byte) (i : Nat) :
    (makeCfg a p).getLsbD i = if i < 9 then (padBits p).getLsbD i else (alphabetBits a).getLsbD (i - 9) := by
  rw [makeCfg, BitVec.getLsbD_append]

@[simp] theorem cfgAlpha_makeCfg (a : Alphabet) (p : Option Byte) : cfgAlpha (makeCfg a p) = a := by
  have h : (makeCfg a p).extractLsb' 9 2 = alphabetBits a := by
    apply BitVec.eq_of_getLsbD_eq
    intro i hi
    rw [BitVec.getLsbD_extractLsb', getLsbD_makeCfg, if_neg (by omega)]
    simp [hi]
  rw [cfgAlpha, h, alphabetOfBits_alphabetBits]

theorem extractLsb'_eight_makeCfg (a : Alphabet) (p : Option Byte) :
    (makeCfg a p).extractLsb' 8 1 = BitVec.ofBool p.isSome := by
  apply BitVec.eq_of_getLsbD_eq
  intro i hi
  obtain rfl : i = 0 := by omega
  rw [BitVec.getLsbD_extractLsb', getLsbD_makeCfg, if_pos (by omega)]
  cases p with
  | none => simp [padBits]
  | some b => simp only [padBits]; rw [BitVec.getLsbD_append]; simp

@[simp] theorem cfgPE_makeCfg (a : Alphabet) (p : Option Byte) : cfgPE (makeCfg a p) = p.isSome := by
  rw [cfgPE, extractLsb'_eight_makeCfg]
  cases p <;> rfl

@[simp] theorem cfgPad_makeCfg (a : Alphabet) (p : Option Byte) : cfgPad (makeCfg a p) = p.getD 0#8 := by
  apply BitVec.eq_of_getLsbD_eq
  intro i hi
  rw [cfgPad, BitVec.getLsbD_extractLsb', getLsbD_makeCfg, if_pos (by omega)]
  cases p with
  | none => simp [padBits]
  | some b => simp only [padBits]; rw [BitVec.getLsbD_append]; simp [hi]

@[simp] theorem cfgPadOption_makeCfg (a : Alphabet) (p : Option Byte) : cfgPadOption (makeCfg a p) = p := by
  cases p <;> simp [cfgPadOption]

/-- CFG is its fields (10_state.md R25). -/
theorem cfg_append (c : BitVec 11) : c.extractLsb' 9 2 ++ (c.extractLsb' 8 1 ++ c.extractLsb' 0 8) = c := by
  apply BitVec.eq_of_getLsbD_eq
  intro i hi
  simp only [BitVec.getLsbD_append, BitVec.getLsbD_extractLsb']
  interval_cases i <;> simp

@[simp] theorem alphabetBits_alphabetOfBits : ∀ b, alphabetBits (alphabetOfBits b) = b := by decide

/-- A legal CFG is the value of its alphabet and its optional pad byte (R26). -/
theorem makeCfg_of_cfgLegal {p : Params} {c : BitVec 11} (h : cfgLegal p c) : makeCfg (cfgAlpha c) (cfgPadOption c) = c := by
  rw [makeCfg, cfgAlpha, alphabetBits_alphabetOfBits]
  conv_rhs => rw [← cfg_append c]
  congr 1
  simp only [cfgPadOption]
  by_cases hp : cfgPE c = true
  · rw [if_pos hp]
    have : c.extractLsb' 8 1 = 1#1 := by simpa [cfgPE] using hp
    rw [this]; rfl
  · have hp := Bool.of_not_eq_true hp
    have : c.extractLsb' 8 1 = 0#1 := by
      have h1 : c.extractLsb' 8 1 ≠ 1#1 := by simpa [cfgPE] using hp
      generalize c.extractLsb' 8 1 = x at h1
      revert x; decide
    have h8 := h.1 hp
    simp only [cfgPad] at h8
    rw [this, h8]; simp [hp, padBits]

/-- An entry of INV is a 5-bit value or INVALID. -/
theorem invEntry_eq (p : Params) (a : Alphabet) (b : Byte) :
    (∃ i : Nat, ∃ h : i < 32, (p.symTable a)[i] = b ∧ invEntry p a b = BitVec.ofNat 8 i) ∨
      (b ∉ (p.symTable a).toList ∧ invEntry p a b = p.invalid) := by
  by_cases h : b ∈ (p.symTable a).toList
  · left
    have hl : (p.symTable a).toList.length = 32 := by simp
    have hi : (p.symTable a).toList.idxOf b < 32 := by
      have := List.idxOf_lt_length_iff.mpr h
      omega
    refine ⟨_, hi, ?_, by simp only [invEntry, if_pos hi]⟩
    have := List.getElem_idxOf (List.idxOf_lt_length_iff.mpr h)
    rwa [Vector.getElem_toList] at this
  · right
    have hl : (p.symTable a).toList.length = 32 := by simp
    have := List.idxOf_eq_length h
    exact ⟨h, by simp only [invEntry]; rw [if_neg (by omega)]⟩

theorem Params.wf_symTable {p : Params} (h : p.wf) (a : Alphabet) : symTableWf (p.symTable a) := by
  obtain ⟨-, -, -, ⟨h0, h1, h2, h3⟩, -⟩ := h
  cases a
  · exact h0
  · exact h1
  · exact h2
  · exact h3

/-- The built-in pad byte of an alphabet is none of its symbols (40_config.md R72). -/
theorem Params.wf_builtInPad {p : Params} (h : p.wf) {a : Alphabet} {b : Byte} (hb : builtInPad a = some b) :
    b ∉ (p.symTable a).toList := by
  obtain ⟨-, -, -, -, ⟨h0, h1⟩, -⟩ := h
  cases a
  · obtain rfl : 0x3D#8 = b := Option.some.inj hb; exact h0
  · obtain rfl : 0x3D#8 = b := Option.some.inj hb; exact h1
  · cases hb
  · cases hb

/-- A valid entry is never the sentinel. -/
theorem Params.wf_invalid_ne {p : Params} (h : p.wf) {i : Nat} (hi : i < 32) : BitVec.ofNat 8 i ≠ p.invalid := by
  intro e
  have h32 := h.2.2.2.2.2
  rw [← e, BitVec.toNat_ofNat] at h32
  omega

/-- The lookup gives `i` exactly where SYM[a][i] is the byte (R32). -/
theorem invLookup_eq_some {p : Params} (h : p.wf) (a : Alphabet) (b : Byte) (v : Symbol) :
    invLookup p a b = some v ↔ symEntry p a v = b := by
  have hnd := (Params.wf_symTable h a).2
  have key : ∀ i j : Nat, (hi : i < 32) → (hj : j < 32) → (p.symTable a)[i] = (p.symTable a)[j] → i = j := by
    intro i j hi hj e
    have := (List.Nodup.getElem_inj_iff hnd (i := i) (j := j) (hi := by simpa using hi) (hj := by simpa using hj)).mp
      (by simpa using e)
    exact this
  rcases invEntry_eq p a b with ⟨i, hi, hb, he⟩ | ⟨hb, he⟩
  · simp only [invLookup, he, if_neg (Params.wf_invalid_ne h hi), Option.some.injEq, symEntry]
    constructor
    · rintro rfl
      rw [← hb]
      congr 1
      simp only [BitVec.toNat_setWidth, BitVec.toNat_ofNat]; omega
    · intro e
      have hv := key _ _ v.isLt hi (e.trans hb.symm)
      apply BitVec.eq_of_toNat_eq
      simp only [BitVec.toNat_setWidth, BitVec.toNat_ofNat]; omega
  · simp only [invLookup, he, if_true, reduceCtorEq, symEntry, false_iff]
    rintro rfl
    exact hb (by simp)

/-- The lookup fails exactly on the bytes that are no symbol (R32). -/
theorem invLookup_eq_none {p : Params} (h : p.wf) (a : Alphabet) (b : Byte) :
    invLookup p a b = none ↔ b ∉ (p.symTable a).toList := by
  rcases invEntry_eq p a b with ⟨i, hi, hb, he⟩ | ⟨hb, he⟩
  · simp only [invLookup, he, if_neg (Params.wf_invalid_ne h hi), reduceCtorEq, false_iff, not_not]
    rw [← hb]; simp
  · simp [invLookup, he, hb]

/-- `INV` inverts `SYM` (R32). -/
theorem invLookup_symEntry {p : Params} (h : p.wf) (a : Alphabet) (v : Symbol) :
    invLookup p a (symEntry p a v) = some v := (invLookup_eq_some h a _ v).mpr rfl

/-- The test on the entry and the lookup agree. -/
theorem invLookup_isNone (p : Params) (a : Alphabet) (b : Byte) :
    invLookup p a b = none ↔ invEntry p a b = p.invalid := by
  simp only [invLookup]; split <;> simp_all

end Sys2Proof.Machine
end

