-- ==== Sys2Proof/Laws/Sizes.lean ====
section
/-! SUPPORT. The Size Calculator as plain arithmetic (41_size.md R80, R82), and the arithmetic of chunks and tails. -/

namespace Sys2Proof.Machine

theorem encodedSize_padded (w n : Nat) :
    encodedSize w true n = if n + 4 < 2 ^ w ∧ (n + 4) / 5 * 8 < 2 ^ w then some ((n + 4) / 5 * 8) else none := by
  simp only [encodedSize, checkedAdd, checkedMul, if_true]
  split <;> split at * <;> simp_all

theorem encodedSize_unpadded (w n : Nat) :
    encodedSize w false n = if n * 8 + 4 < 2 ^ w then some ((n * 8 + 4) / 5) else none := by
  simp only [encodedSize, checkedAdd, checkedMul, Bool.false_eq_true, if_false]
  by_cases h : n * 8 < 2 ^ w
  · simp only [if_pos h]; split <;> split at * <;> simp_all
  · simp only [if_neg h]; rw [if_neg (by omega)]

theorem decodedSize_padded (w m : Nat) :
    decodedSize w true m = if m / 8 * 5 < 2 ^ w then some (m / 8 * 5) else none := by
  simp only [decodedSize, checkedMul, if_true]

theorem decodedSize_unpadded (w m : Nat) :
    decodedSize w false m = if m * 5 < 2 ^ w then some (m * 5 / 8) else none := by
  simp only [decodedSize, checkedMul, Bool.false_eq_true, if_false]
  by_cases h : m * 5 < 2 ^ w
  · simp only [if_pos h]
  · simp only [if_neg h]

/-- A size that is computed is a LEN_W-bit value (R79). -/
theorem encodedSize_lt {w n v : Nat} {pe : Bool} (h : encodedSize w pe n = some v) : v < 2 ^ w := by
  cases pe
  · rw [encodedSize_unpadded] at h; split at h <;> simp at h; omega
  · rw [encodedSize_padded] at h; split at h <;> simp at h; omega

theorem decodedSize_lt {w m v : Nat} {pe : Bool} (h : decodedSize w pe m = some v) : v < 2 ^ w := by
  cases pe
  · rw [decodedSize_unpadded] at h; split at h <;> simp at h; omega
  · rw [decodedSize_padded] at h; split at h <;> simp at h; omega

/-- ENC writes exactly `encoded_size` bytes (42_encode.md R100). -/
theorem textLength_of_encodedSize {w n v : Nat} {pe : Bool} (h : encodedSize w pe n = some v) : textLength pe n = v := by
  have : remainderSymbols (n % 5) = (8 * (n % 5) + 4) / 5 := rfl
  cases pe
  · rw [encodedSize_unpadded] at h
    split at h <;> simp only [Option.some.injEq, reduceCtorEq] at h
    simp only [textLength, Bool.false_eq_true, if_false]
    split <;> omega
  · rw [encodedSize_padded] at h
    split at h <;> simp only [Option.some.injEq, reduceCtorEq] at h
    simp only [textLength, if_true]
    split <;> omega

/-- The body and the tail make up the text (43_decode.md R110). -/
theorem bodyChunks_tail (m : Nat) : m = 8 * bodyChunks m + tailLength m ∧ tailLength m ≤ 8 := by
  simp only [bodyChunks, tailLength]; split <;> omega

theorem tailStop_le (pad : Option Byte) (T : Nat → Byte) (m : Nat) : tailStop pad T m ≤ tailLength m := by
  simp only [tailStop]
  cases h : (List.range (tailLength m)).find? _ with
  | none => simp
  | some k =>
    have := List.mem_of_find?_eq_some h
    simp at this ⊢; omega

/-- Where consumption ends in the tail: at the first pad byte, or at the tail's end where it holds none (R115). -/
theorem tailStop_spec (pad : Option Byte) (T : Nat → Byte) (m k : Nat) :
    tailStop pad T m = k ↔
      (k ≤ tailLength m ∧ (∀ j < k, pad ≠ some (T (8 * bodyChunks m + j))) ∧
        (k < tailLength m → pad = some (T (8 * bodyChunks m + k)))) := by
  simp only [tailStop]
  cases h : (List.range (tailLength m)).find? (fun k => pad == some (T (8 * bodyChunks m + k))) with
  | none =>
    have h' := List.find?_eq_none.mp h
    simp only [List.mem_range, beq_iff_eq] at h'
    simp only [Option.getD_none]
    constructor
    · rintro rfl; exact ⟨le_refl _, h', by omega⟩
    · rintro ⟨h1, h2, h3⟩
      by_contra hne
      exact h' k (by omega) (h3 (by omega))
  | some i =>
    rw [List.find?_range_eq_some] at h
    obtain ⟨h1, h2, h3⟩ := h
    simp only [beq_iff_eq, List.mem_range, Bool.not_eq_true', beq_eq_false_iff_ne] at h1 h2 h3
    simp only [Option.getD_some]
    constructor
    · rintro rfl; exact ⟨by omega, h3, fun _ => h1⟩
    · rintro ⟨g1, g2, g3⟩
      rcases Nat.lt_trichotomy i k with hlt | heq | hgt
      · exact absurd h1 (g2 i hlt)
      · exact heq
      · exact absurd (g3 (by omega)) (h3 k hgt)

theorem consumedLength_le (pad : Option Byte) (T : Nat → Byte) (m : Nat) : consumedLength pad T m ≤ m := by
  have h1 := bodyChunks_tail m
  have h2 := tailStop_le pad T m
  simp only [consumedLength]; omega

/-- The position DEC reports: the lowest consumed one whose byte is no symbol (R111). -/
theorem firstInvalid_eq_some (inv : Byte → Option Symbol) (T : Nat → Byte) (len pos : Nat) :
    firstInvalid inv T len = some pos ↔ pos < len ∧ inv (T pos) = none ∧ ∀ i < pos, inv (T i) ≠ none := by
  simp only [firstInvalid, List.find?_range_eq_some, Option.isNone_iff_eq_none, List.mem_range, Bool.not_eq_true',
    Option.isNone_eq_false_iff, ne_eq, Option.isSome_iff_ne_none]
  tauto

theorem firstInvalid_eq_none (inv : Byte → Option Symbol) (T : Nat → Byte) (len : Nat) :
    firstInvalid inv T len = none ↔ ∀ i < len, inv (T i) ≠ none := by
  simp only [firstInvalid, List.find?_eq_none, List.mem_range, Option.isNone_iff_eq_none]

theorem tailBytes_le (ns : Nat) : 8 * tailBytes ns ≤ 5 * ns ∧ tailBytes ns ≤ 5 := by
  unfold tailBytes; split <;> omega

/-- The number of whole bytes in the consumed symbols (R118). -/
theorem tailBytes_eq {ns : Nat} (h : ns ≤ 8) (hb : badSymbolCount ns = false) : tailBytes ns = 5 * ns / 8 := by
  revert hb
  interval_cases ns <;> decide

end Sys2Proof.Machine
end

