-- ==== Sys2Proof/Laws/Commands.lean ====
section
/-! SUPPORT. What each command can do, said once: every command answers a next state, and which one, case by case in the order of
the spec's checks (60_exceptions.md R145). -/

namespace Sys2Proof.Machine

/-- Every command answers a next state: an error and a fault of the block are next states (60_exceptions.md R136, R139). -/
theorem exec_next (i : Instr) (s : State) : ∃ t, exec i s = .next t := by
  cases i <;> simp only [exec, execLdcfg, execSetpad, execClrpad, execEncsz, execDecsz, execEnc, execPadd, execDec]
  all_goals first
    | exact ⟨_, rfl⟩
    | (split <;> first
        | exact ⟨_, rfl⟩
        | (split <;> first
            | exact ⟨_, rfl⟩
            | (split <;> first
                | exact ⟨_, rfl⟩
                | (split <;> exact ⟨_, rfl⟩))))

/-! The three ends, in the terms of the statements. -/

@[simp] theorem endedOk_done (s : State) (v w : Nat) : endedOk (s.done v) w ↔ v = w := by simp [endedOk]

@[simp] theorem endedError_raiseError (s : State) (c : Code) (pos : Nat) (b : Byte) :
    endedError (s.raiseError c pos b) c pos b := by simp [endedError]

@[simp] theorem endedFatal_raiseFatal (s : State) (c d : FCause) : endedFatal (s.raiseFatal c) d ↔ c = d := by
  simp [endedFatal]

theorem slicesInRange_iff (s : State) :
    slicesInRange s = true ↔ s.arg0 ≤ s.par.ibufSize ∧ s.arg1 ≤ s.par.obufSize := by
  simp [slicesInRange, outputInRange]

theorem outputInRange_iff (s : State) : outputInRange s = true ↔ s.arg1 ≤ s.par.obufSize := by
  simp [outputInRange]

/-- What a size command can do. -/
theorem finishSize_cases (r : Option Nat) (s : State) :
    (r = none ∧ finishSize r s = s.raiseFatal .overflow) ∨ (∃ v, r = some v ∧ finishSize r s = s.done v) := by
  cases r
  · exact .inl ⟨rfl, rfl⟩
  · exact .inr ⟨_, rfl, rfl⟩

/-- What SETPAD can do. -/
theorem execSetpad_cases {b : Byte} {s t : State} (h : execSetpad b s = .next t) :
    (stateInv s b ≠ none ∧ t = s.raiseFatal .config) ∨
    (stateInv s b = none ∧ t = (s.setCfg (makeCfg (cfgAlpha s.cfg) (some b))).done 0) := by
  simp only [execSetpad] at h
  split at h <;> rename_i hc
  · exact .inl ⟨hc, (Host.Outcome.next.inj h).symm⟩
  · exact .inr ⟨not_not.mp hc, (Host.Outcome.next.inj h).symm⟩

/-- What ENC can do (42_encode.md R105). -/
theorem execEnc_cases {s t : State} (h : execEnc s = .next t) :
    (slicesInRange s = false ∧ t = s.raiseFatal .bufRange) ∨
    (slicesInRange s = true ∧ stateEncodedSize s = none ∧ t = s.raiseFatal .overflow) ∨
    (∃ size, slicesInRange s = true ∧ stateEncodedSize s = some size ∧ s.arg1 < size ∧ t = s.raiseFatal .outTooSmall) ∨
    (∃ size, slicesInRange s = true ∧ stateEncodedSize s = some size ∧ size ≤ s.arg1 ∧ t = finishEnc s) := by
  simp only [execEnc] at h
  split at h <;> rename_i hr
  · exact .inl ⟨hr, (Host.Outcome.next.inj h).symm⟩
  · have hr := Bool.of_not_eq_false hr
    split at h <;> rename_i hs
    · exact .inr (.inl ⟨hr, hs, (Host.Outcome.next.inj h).symm⟩)
    · split at h <;> rename_i hc
      · exact .inr (.inr (.inl ⟨_, hr, hs, hc, (Host.Outcome.next.inj h).symm⟩))
      · exact .inr (.inr (.inr ⟨_, hr, hs, Nat.le_of_not_lt hc, (Host.Outcome.next.inj h).symm⟩))

/-- What PADD can do (42_encode.md R103). -/
theorem execPadd_cases {s t : State} (h : execPadd s = .next t) :
    (outputInRange s = false ∧ t = s.raiseFatal .bufRange) ∨
    (outputInRange s = true ∧ cfgPE s.cfg = false ∧ t = s.done 0) ∨
    (outputInRange s = true ∧ cfgPE s.cfg = true ∧ s.arg1 < padCount (s.arg0 % 5) ∧ t = s.raiseFatal .outTooSmall) ∨
    (outputInRange s = true ∧ cfgPE s.cfg = true ∧ padCount (s.arg0 % 5) ≤ s.arg1 ∧ t = finishPadd s) := by
  simp only [execPadd] at h
  split at h <;> rename_i hr
  · exact .inl ⟨hr, (Host.Outcome.next.inj h).symm⟩
  · have hr := Bool.of_not_eq_false hr
    split at h <;> rename_i hp
    · exact .inr (.inl ⟨hr, hp, (Host.Outcome.next.inj h).symm⟩)
    · have hp := Bool.of_not_eq_false hp
      split at h <;> rename_i hc
      · exact .inr (.inr (.inl ⟨hr, hp, hc, (Host.Outcome.next.inj h).symm⟩))
      · exact .inr (.inr (.inr ⟨hr, hp, Nat.le_of_not_lt hc, (Host.Outcome.next.inj h).symm⟩))

/-- What the consumption of a text can do (43_decode.md R123 steps 5 to 8). -/
theorem consumeText_cases (s : State) :
    (∃ pos, decInvalid s = some pos ∧ consumeText s = (clobberOutput s).raiseError .errByte pos (ibufByte s pos)) ∨
    (decInvalid s = none ∧ badSymbolCount (decTailSymbols s) = true ∧
      consumeText s = (clobberOutput s).raiseError .errLength 0 0#8) ∨
    (decInvalid s = none ∧ badSymbolCount (decTailSymbols s) = false ∧ s.arg1 < decCount s ∧
      consumeText s = (clobberOutput s).raiseFatal .outOverrun) ∨
    (decInvalid s = none ∧ badSymbolCount (decTailSymbols s) = false ∧ decCount s ≤ s.arg1 ∧
      consumeText s = finishDec s) := by
  simp only [consumeText]
  cases hi : decInvalid s with
  | some pos => exact .inl ⟨pos, rfl, rfl⟩
  | none =>
    cases hb : badSymbolCount (decTailSymbols s) with
    | true => exact .inr (.inl ⟨rfl, rfl, by simp⟩)
    | false =>
      by_cases hc : s.arg1 < decCount s
      · exact .inr (.inr (.inl ⟨rfl, rfl, hc, by simp [hc]⟩))
      · exact .inr (.inr (.inr ⟨rfl, rfl, Nat.le_of_not_lt hc, by simp [hc]⟩))

/-- What DEC can do before it consumes the text (43_decode.md R123 steps 1 to 4). -/
theorem execDec_cases {s t : State} (h : execDec s = .next t) :
    (slicesInRange s = false ∧ t = s.raiseFatal .bufRange) ∨
    (slicesInRange s = true ∧ stateDecodedSize s = none ∧ t = s.raiseFatal .overflow) ∨
    (∃ size, slicesInRange s = true ∧ stateDecodedSize s = some size ∧ s.arg1 < size ∧ t = s.raiseFatal .outTooSmall) ∨
    (∃ size, slicesInRange s = true ∧ stateDecodedSize s = some size ∧ size ≤ s.arg1 ∧ badSymbolCount (s.arg0 % 8) = true ∧
      t = s.raiseError .errLength 0 0#8) ∨
    (∃ size, slicesInRange s = true ∧ stateDecodedSize s = some size ∧ size ≤ s.arg1 ∧ badSymbolCount (s.arg0 % 8) = false ∧
      t = consumeText s) := by
  simp only [execDec] at h
  split at h <;> rename_i hr
  · exact .inl ⟨hr, (Host.Outcome.next.inj h).symm⟩
  · have hr := Bool.of_not_eq_false hr
    split at h <;> rename_i hs
    · exact .inr (.inl ⟨hr, hs, (Host.Outcome.next.inj h).symm⟩)
    · split at h <;> rename_i hc
      · exact .inr (.inr (.inl ⟨_, hr, hs, hc, (Host.Outcome.next.inj h).symm⟩))
      · split at h <;> rename_i hb
        · exact .inr (.inr (.inr (.inl ⟨_, hr, hs, Nat.le_of_not_lt hc, hb, (Host.Outcome.next.inj h).symm⟩)))
        · exact .inr (.inr (.inr (.inr
            ⟨_, hr, hs, Nat.le_of_not_lt hc, Bool.of_not_eq_true hb, (Host.Outcome.next.inj h).symm⟩)))

/-! What every command leaves as it was, and that it leaves BUSY: cited instead of going through the cases again. -/

/-- No command writes its inputs, the parameters or the model's own input fields. -/
theorem exec_keepsInputs {i : Instr} {s t : State} (h : exec i s = .next t) : sameInputs s t := by
  cases i with
  | ldcfg imm => cases h; simp [sameInputs]
  | clrpad => cases h; simp [sameInputs]
  | setpad b => rcases execSetpad_cases h with ⟨_, rfl⟩ | ⟨_, rfl⟩ <;> simp [sameInputs]
  | encsz => cases h; rcases finishSize_cases (stateEncodedSize s) s with ⟨_, h⟩ | ⟨_, _, h⟩ <;> rw [h] <;> simp [sameInputs]
  | decsz => cases h; rcases finishSize_cases (stateDecodedSize s) s with ⟨_, h⟩ | ⟨_, _, h⟩ <;> rw [h] <;> simp [sameInputs]
  | enc =>
    rcases execEnc_cases h with ⟨_, rfl⟩ | ⟨_, _, rfl⟩ | ⟨_, _, _, _, rfl⟩ | ⟨_, _, _, _, rfl⟩ <;> simp [sameInputs, finishEnc]
  | padd =>
    rcases execPadd_cases h with ⟨_, rfl⟩ | ⟨_, _, rfl⟩ | ⟨_, _, _, rfl⟩ | ⟨_, _, _, rfl⟩ <;> simp [sameInputs, finishPadd]
  | dec =>
    rcases execDec_cases h with ⟨_, rfl⟩ | ⟨_, _, rfl⟩ | ⟨_, _, _, _, rfl⟩ | ⟨_, _, _, _, _, rfl⟩ | ⟨_, _, _, _, _, rfl⟩
    any_goals (simp [sameInputs]; done)
    rcases consumeText_cases s with ⟨_, _, h⟩ | ⟨_, _, h⟩ | ⟨_, _, _, h⟩ | ⟨_, _, _, h⟩ <;> rw [h] <;>
      simp only [finishDec, clobberOutput]
    any_goals split
    all_goals simp [sameInputs]

/-- No command leaves the block BUSY (R135, R136, R139). -/
theorem exec_notBusy {i : Instr} {s t : State} (h : exec i s = .next t) (w k : Nat) : t.phase ≠ .busy w k := by
  cases i with
  | ldcfg imm => cases h; simp
  | clrpad => cases h; simp
  | setpad b => rcases execSetpad_cases h with ⟨_, rfl⟩ | ⟨_, rfl⟩ <;> simp
  | encsz => cases h; rcases finishSize_cases (stateEncodedSize s) s with ⟨_, h⟩ | ⟨_, _, h⟩ <;> rw [h] <;> simp
  | decsz => cases h; rcases finishSize_cases (stateDecodedSize s) s with ⟨_, h⟩ | ⟨_, _, h⟩ <;> rw [h] <;> simp
  | enc => rcases execEnc_cases h with ⟨_, rfl⟩ | ⟨_, _, rfl⟩ | ⟨_, _, _, _, rfl⟩ | ⟨_, _, _, _, rfl⟩ <;> simp [finishEnc]
  | padd => rcases execPadd_cases h with ⟨_, rfl⟩ | ⟨_, _, rfl⟩ | ⟨_, _, _, rfl⟩ | ⟨_, _, _, rfl⟩ <;> simp [finishPadd]
  | dec =>
    rcases execDec_cases h with ⟨_, rfl⟩ | ⟨_, _, rfl⟩ | ⟨_, _, _, _, rfl⟩ | ⟨_, _, _, _, _, rfl⟩ | ⟨_, _, _, _, _, rfl⟩
    any_goals (simp; done)
    rcases consumeText_cases s with ⟨_, _, h⟩ | ⟨_, _, h⟩ | ⟨_, _, _, h⟩ | ⟨_, _, _, h⟩ <;> rw [h] <;>
      simp only [finishDec, clobberOutput]
    any_goals split
    all_goals simp

/-- A run through the checks of ENC. -/
theorem execEnc_success {s : State} {size : Nat} (hr : slicesInRange s = true) (hs : stateEncodedSize s = some size)
    (hc : size ≤ s.arg1) : execEnc s = .next (finishEnc s) := by
  simp [execEnc, hr, hs, Nat.not_lt.mpr hc]

/-- A run through the contract and length checks of DEC. -/
theorem execDec_consumes {s : State} {size : Nat} (hr : slicesInRange s = true) (hs : stateDecodedSize s = some size)
    (hc : size ≤ s.arg1) (hb : badSymbolCount (s.arg0 % 8) = false) : execDec s = .next (consumeText s) := by
  simp [execDec, hr, hs, Nat.not_lt.mpr hc, hb]

/-- A run through all the checks of DEC. -/
theorem execDec_success {s : State} {size : Nat} (hr : slicesInRange s = true) (hs : stateDecodedSize s = some size)
    (hc : size ≤ s.arg1) (hb : badSymbolCount (s.arg0 % 8) = false) (hi : decInvalid s = none)
    (ht : badSymbolCount (decTailSymbols s) = false) (hn : decCount s ≤ s.arg1) :
    execDec s = .next (finishDec s) := by
  rw [execDec_consumes hr hs hc hb]
  simp [consumeText, hi, ht, Nat.not_lt.mpr hn]

/-- OBUF after a successful ENC (42_encode.md R101). -/
theorem obufByte_finishEnc (s : State) (j : Nat) :
    obufByte (finishEnc s) j = if j < textLength (cfgPE s.cfg) s.arg0 then encByte s j else obufByte s j := by
  rw [finishEnc, obufByte_done, obufByte_writeObuf]
  simp

/-- OBUF after a PADD that writes (R103). -/
theorem obufByte_finishPadd (s : State) (j : Nat) :
    obufByte (finishPadd s) j = if j < padCount (s.arg0 % 5) then cfgPad s.cfg else obufByte s j := by
  rw [finishPadd, obufByte_done, obufByte_writeObuf]
  simp

/-- OBUF after a successful DEC of a non-empty text (43_decode.md R125 (a)). -/
theorem obufByte_finishDec {s : State} (h : s.arg0 ≠ 0) (j : Nat) :
    obufByte (finishDec s) j =
      if j < decCount s then decByte s j
      else if j < s.arg1 then Config.decSlack s.draws j
      else obufByte s j := by
  rw [finishDec, if_neg h, obufByte_done, obufByte_writeObuf, obufByte_clobberObuf]
  by_cases h1 : j < decCount s
  · simp [h1]
  · simp [h1, Nat.le_of_not_lt h1]

end Sys2Proof.Machine
end

