-- ==== Sys2Proof/Laws/Step.lean ====
section
/-! SUPPORT. What one step can do, said once (60_exceptions.md R133, R134; 70_reset_and_hazards.md R159). -/

namespace Sys2Proof.Machine

/-- A step in IDLE with an event to come. -/
theorem step_idle {s : State} {ev : PortEvent} {rest : List PortEvent} (hp : s.phase = .idle) (hq : s.port = ev :: rest) :
    step s = .next (State.portEvent { s with port := rest } ev) := by
  simp [step, stepBlock, hp, stepReady, hq]

/-- A step in HALTED with an event to come. -/
theorem step_halted {s : State} {c : FCause} {ev : PortEvent} {rest : List PortEvent} (hp : s.phase = .halted c)
    (hq : s.port = ev :: rest) : step s = .next (State.portEvent { s with port := rest } ev) := by
  simp [step, stepBlock, hp, stepReady, hq]

/-- A step outside BUSY with an event to come. -/
theorem step_ready {s : State} {ev : PortEvent} {rest : List PortEvent} (h : ∀ w k, s.phase ≠ .busy w k)
    (hq : s.port = ev :: rest) : step s = .next (State.portEvent { s with port := rest } ev) := by
  cases hp : s.phase with
  | busy w k => exact absurd hp (h w k)
  | idle => rw [step_idle hp hq, hp]
  | halted c => rw [step_halted hp hq, hp]

/-- A CMD write in IDLE, by either event, is accepted (60_exceptions.md R133, R134). -/
theorem step_cmdWrite_idle {s : State} {ev : PortEvent} {v window : Nat} {rest : List PortEvent} (h : isCmdWrite ev v window)
    (hp : s.phase = .idle) (hq : s.port = ev :: rest) :
    step s = .next { s.startCommand (v % 2 ^ s.par.lenW) (commandWindow (v % 2 ^ s.par.lenW) window) with
      port := rest, rdata := none } := by
  rw [step_idle hp hq]
  rcases h with rfl | ⟨rfl, rfl⟩ <;> simp only [State.portEvent, State.writeReg, State.writeCmd, hp] <;> rfl

/-- A CMD write in HALTED, by either event, is discarded (R133). -/
theorem step_cmdWrite_halted {s : State} {ev : PortEvent} {v window : Nat} {c : FCause} {rest : List PortEvent}
    (h : isCmdWrite ev v window) (hp : s.phase = .halted c) (hq : s.port = ev :: rest) :
    step s = .next { s with port := rest, rdata := none } := by
  rw [step_halted hp hq]
  rcases h with rfl | ⟨rfl, rfl⟩ <;> simp only [State.portEvent, State.writeReg, State.writeCmd, hp] <;> rfl

/-- A command written with no window, or an illegal one, has none. -/
theorem commandWindow_le (word window : Nat) : commandWindow word window ≤ window := by
  simp only [commandWindow]; split <;> omega

/-- A step outside BUSY with nothing to come changes nothing. -/
theorem step_quiet {s : State} (hp : ∀ w k, s.phase ≠ .busy w k) (hq : s.port = []) : step s = .next s := by
  cases h : s.phase with
  | busy w k => exact absurd h (hp w k)
  | idle => simp [step, stepBlock, h, stepReady, hq]
  | halted c => simp [step, stepBlock, h, stepReady, hq]

/-- A step in BUSY with no access due runs the command. -/
theorem step_run {s : State} {w k : Nat} (hp : s.phase = .busy w k) (h : k = 0 ∨ s.port = []) : step s = runCommand w s := by
  simp only [step, stepBlock, hp, stepBusy]
  split
  · rcases h with h | h
    · cases h
    · rename_i hq; rw [hq] at h; cases h
  · rfl

/-- A step in BUSY with an access due. -/
theorem step_busy {s : State} {w k : Nat} {ev : PortEvent} {rest : List PortEvent} (hp : s.phase = .busy w (k + 1))
    (hq : s.port = ev :: rest) : step s = State.busyEvent { s with phase := .busy w k, port := rest } ev := by
  simp [step, stepBlock, hp, stepBusy, hq]

/-- A command that is run answers a next state. -/
theorem runCommand_next (w : Nat) (s : State) : ∃ t, runCommand w s = .next t := by
  simp only [runCommand]; split
  · exact exec_next _ s
  · exact ⟨_, rfl⟩

end Sys2Proof.Machine
end

