-- ==== Sys2Proof/Laws/HostCalls.lean ====
section
/-! SUPPORT. What the host's accesses, `CMD i; WAIT` and a sequence of them do, said once (00_scope.md R11, 30_encoding.md R69). -/

namespace Sys2Proof.Machine

@[simp] theorem followedBy_next {α β : Type} (a : α) (f : α → Host.Outcome β Fault Refusal) : followedBy (.next a) f = f a := rfl

theorem followedBy_assoc {α β γ : Type} (o : Host.Outcome α Fault Refusal) (f : α → Host.Outcome β Fault Refusal)
    (g : β → Host.Outcome γ Fault Refusal) : followedBy (followedBy o f) g = followedBy o fun a => followedBy (f a) g := by
  cases o <;> rfl

/-- A STATUS value's bit 0 is BUSY and its bit 1 FATAL (10_state.md R24). -/
theorem statusWord_busy (s : State) (h : ∀ w k, s.phase ≠ .busy w k) : (statusWord s).toNat.testBit 0 = false := by
  cases hp : s.phase with
  | busy w k => exact absurd hp (h w k)
  | idle => cases hc : s.code <;> simp [statusWord, hp, hc, phaseBusy, phaseFatal, phaseCause, codeBits]
  | halted c =>
    cases hc : s.code <;> cases c <;> simp [statusWord, hp, hc, phaseBusy, phaseFatal, phaseCause, codeBits, causeBits]

theorem statusWord_fatal (s : State) : (statusWord s).toNat.testBit 1 = isHalted s := by
  cases hp : s.phase <;> cases hc : s.code <;> simp only [statusWord, isHalted, hp, hc]
  all_goals first
    | decide
    | (rename_i c; cases c <;> decide)
    | (simp only [phaseBusy, phaseFatal, phaseCause]; decide)

/-- STATUS.CODE is the number of the completion code (R24). -/
theorem statusCode_eq (t : State) : statusCode t = codeBits t.code := by
  cases hp : t.phase <;> cases hc : t.code <;> simp only [statusCode, statusWord, hp, hc] <;> first
    | decide
    | (simp only [phaseBusy, phaseFatal, phaseCause]; decide)
    | (rename_i c; cases c <;> decide)

/-- What the last STATUS answer of a WAIT leaves. -/
def State.afterStatus (s : State) : State := { s with port := [], rdata := some (statusWord s).toNat }

/-- An access outside BUSY. -/
theorem hostAccess_ready {s : State} (h : ∀ w k, s.phase ≠ .busy w k) (ev : PortEvent) :
    hostAccess s ev = .next (State.portEvent { s with port := [] } ev) := by
  have hs : step (s.present ev) = .next (State.portEvent { s with port := [] } ev) := step_ready h rfl
  simp only [hostAccess]
  split
  · exact absurd ‹_› (h _ _)
  · exact absurd ‹_› (h _ _)
  · exact hs
  · exact hs

/-- `CMD i` in IDLE makes the block BUSY with the word of `i` (60_exceptions.md R134). -/
theorem hostCommand_idle {s : State} {i : Instr} (window : Instr → Nat) (hp : s.phase = .idle) (hw : 16 ≤ s.par.lenW)
    (hd : decodePort (encode i).toNat = .ok i) :
    hostCommand window i s =
      .next { s.startCommand (encode i).toNat (window i) with port := [], rdata := none } := by
  have hlt : (encode i).toNat % 2 ^ s.par.lenW = (encode i).toNat :=
    Nat.mod_eq_of_lt ((encode i).isLt.trans_le (Nat.pow_le_pow_right (by decide) hw))
  rw [hostCommand, hostAccess_ready (by simp [hp])]
  simp only [State.portEvent, State.writeCmd, hp, lenBits, hlt, commandWindow, hd]
  rfl

/-- The state in which a command runs after the STATUS reads of its window. -/
def State.runs (s : State) (w : Nat) (rd : Option Nat) (draws : Nat) : State :=
  { s with phase := .busy w 0, port := [.readReg 1], rdata := rd, draws := draws }

/-- A WAIT lets the command run to its end and then reads STATUS. -/
theorem statusReads_busy {s : State} {w k : Nat} (hp : s.phase = .busy w k) :
    ∃ rd, statusReads k s = followedBy (runCommand w (s.runs w rd (s.draws + k))) step := by
  induction k generalizing s with
  | zero =>
    refine ⟨s.rdata, ?_⟩
    simp only [statusReads, hostAccess, hp]
    rw [step_run (s := s.present (.readReg 1)) hp (.inl rfl)]
    simp only [State.present, State.runs, Nat.add_zero, ← hp]
  | succ k ih =>
    have hs : hostAccess s (.readReg 1) =
        .next (State.busyStatusRead { s with phase := .busy w k, port := [] }) := by
      simp only [hostAccess, hp]
      rw [step_busy (s := s.present (.readReg 1)) hp rfl]
      rfl
    have hb : answerBusy (State.busyStatusRead { s with phase := .busy w k, port := [] }) = true := by
      simp only [answerBusy, portAnswer, State.busyStatusRead, Option.getD_some, BitVec.testBit_toNat, busyStatusWord]
      rw [BitVec.getLsbD_append]
      rfl
    obtain ⟨rd, h⟩ := ih (s := State.busyStatusRead { s with phase := .busy w k, port := [] }) rfl
    refine ⟨rd, ?_⟩
    simp only [statusReads, hs, followedBy_next, hb, if_true, h]
    simp only [State.runs, State.busyStatusRead, Nat.add_assoc, Nat.add_comm 1 k]

/-- `CMD i; WAIT` from IDLE: the command runs in some state that differs from a fresh start in the model's own fields only, and the
sequence goes on unless the block has halted. -/
theorem commandWait_idle {s : State} {i : Instr} (window : Instr → Nat) (hp : s.phase = .idle) (hw : 16 ≤ s.par.lenW)
    (hd : decodePort (encode i).toNat = .ok i) :
    ∃ rd draws t, exec i ((s.startCommand (encode i).toNat 0).runs (encode i).toNat rd draws) = .next t ∧
      ∀ rest, commandWait window i rest s = if isHalted t then .next ⟨.stopped, t.afterStatus⟩ else rest t.afterStatus := by
  obtain ⟨rd, h⟩ := statusReads_busy
    (s := { s.startCommand (encode i).toNat (window i) with port := [], rdata := none }) (w := (encode i).toNat)
    (k := window i) rfl
  obtain ⟨t, ht⟩ := exec_next i ((s.startCommand (encode i).toNat 0).runs (encode i).toNat rd (s.draws + window i))
  have hk : t.port = [.readReg 1] := (exec_keepsInputs ht).2.2.2.2.2.1
  have hn := exec_notBusy ht
  have hstep : step t = .next t.afterStatus := by
    rw [step_ready hn hk]; rfl
  refine ⟨rd, _, t, ht, fun rest => ?_⟩
  have hrun : runCommand (encode i).toNat
      (State.runs { s.startCommand (encode i).toNat (window i) with port := [], rdata := none } (encode i).toNat rd
        (s.draws + window i)) = .next t := by
    simp only [runCommand, hd]; exact ht
  have hwait : hostWait { s.startCommand (encode i).toNat (window i) with port := [], rdata := none } =
      .next t.afterStatus := by
    simp only [hostWait, phaseWindow, State.startCommand]
    exact h.trans (by rw [show ({ s.startCommand (encode i).toNat (window i) with port := [], rdata := none } : State).draws =
      s.draws from rfl, hrun, followedBy_next, hstep])
  have hf : answerFatal t.afterStatus = isHalted t := by
    simp only [answerFatal, portAnswer, State.afterStatus, Option.getD_some, statusWord_fatal]
  simp only [commandWait, hostCommand_idle window hp hw hd, followedBy_next, hwait, hf]

/-- The sized sequence of ENCODE and DECODE from IDLE, where `ask` is a size command and `sz` the size of `n`: it stops where the size
overflows, before ARG1 is written; else `run` runs with ARG0 = `n` and ARG1 = the size, and its end is the sequence's. -/
theorem sizedCall_idle {s : State} (window : Instr → Nat) (hp : s.phase = .idle) (hw : 16 ≤ s.par.lenW) {n : Nat}
    (hn : n < 2 ^ s.par.lenW) {ask run : Instr} (ha : decodePort (encode ask).toNat = .ok ask)
    (hr : decodePort (encode run).toNat = .ok run) (sz : Option Nat) (hlt : ∀ v, sz = some v → v < 2 ^ s.par.lenW)
    (hask : ∀ u, sameOperands { s with arg0 := n } u → exec ask u = .next (finishSize sz u)) (result : State → CallResult) :
    (sz = none → ∃ t, sizedCall window ask run result n s = .next ⟨.stopped, t⟩ ∧ endedFatal t .overflow ∧
      t.arg1 = s.arg1 ∧ t.cfg = s.cfg) ∧
    (∀ size, sz = some size → ∃ u t, sameOperands { s with arg0 := n, arg1 := size } u ∧ exec run u = .next t ∧
      sizedCall window ask run result n s =
        .next (if isHalted t then ⟨.stopped, t.afterStatus⟩ else ⟨result t.afterStatus, t.afterStatus⟩)) := by
  let s1 : State := { s with port := [], arg0 := n, rdata := none }
  have h1 : hostAccess s (.writeReg 3 n) = .next s1 := by
    rw [hostAccess_ready (by simp [hp])]
    simp only [State.portEvent, State.writeReg, lenBits, Nat.mod_eq_of_lt hn]; rfl
  obtain ⟨rd, dr, t, ht, hc⟩ := commandWait_idle (s := s1) window hp hw ha
  generalize hu : (s1.startCommand (encode ask).toNat 0).runs (encode ask).toNat rd dr = u at ht hc
  rw [hask u (by subst hu; exact ⟨rfl, rfl, rfl, rfl, rfl, rfl⟩)] at ht
  obtain rfl := Host.Outcome.next.inj ht
  constructor
  · rintro rfl
    refine ⟨(finishSize none u).afterStatus, ?_, ?_, by rw [← hu]; rfl, by rw [← hu]; rfl⟩
    · rw [sizedCall, h1, followedBy_next, hc]; simp [finishSize, isHalted]
    · simp [finishSize, State.afterStatus, endedFatal]
  · rintro size rfl
    have hsize := Nat.mod_eq_of_lt (hlt size rfl)
    let t1 := (finishSize (some size) u).afterStatus
    let t2 : State := { t1 with rdata := some size }
    let t3 : State := { t2 with arg1 := size, rdata := none }
    have h2 : hostAccess t1 (.readReg 5) = .next t2 := by
      rw [hostAccess_ready (by simp [show t1.phase = .idle from rfl])]; rfl
    have h3 : hostAccess t2 (.writeReg 4 (portAnswer t2)) = .next t3 := by
      rw [hostAccess_ready (by simp [show t2.phase = .idle from rfl])]
      have hz : portAnswer t2 % 2 ^ t2.par.lenW = size := by
        show size % 2 ^ u.par.lenW = size
        rw [← hu]; exact hsize
      simp only [State.portEvent, State.writeReg, lenBits]
      show Host.Outcome.next { t2 with port := [], arg1 := portAnswer t2 % 2 ^ t2.par.lenW, rdata := none } = _
      rw [hz]; rfl
    have hw3 : 16 ≤ t3.par.lenW := by
      show 16 ≤ u.par.lenW
      rw [← hu]; exact hw
    obtain ⟨rd', dr', t, ht', hc'⟩ := commandWait_idle (s := t3) window rfl hw3 hr
    refine ⟨_, t, ?_, ht', ?_⟩
    · subst hu; exact ⟨rfl, rfl, rfl, rfl, rfl, rfl⟩
    · rw [sizedCall, h1, followedBy_next, hc, if_neg (by simp [finishSize, isHalted])]
      show followedBy (hostAccess t1 _) _ = _
      rw [h2, followedBy_next]
      show followedBy (hostAccess t2 _) _ = _
      rw [h3, followedBy_next]
      show commandWait window run _ t3 = _
      rw [hc']; split <;> rfl

end Sys2Proof.Machine
end

