-- ==== Sys2Proof/Laws/Packing.lean ====
section
/-! SUPPORT. The laws of packing and unpacking: a 40-bit group is its eight symbols and its five bytes, most significant first
(20_memory.md R41, R42; 42_encode.md R94; 43_decode.md R112, R113). -/

namespace Sys2Proof.Machine

/-- A group is the concatenation of its eight symbols. -/
theorem append_symbolOf (V : Group) :
    symbolOf V 0 ++ symbolOf V 1 ++ symbolOf V 2 ++ symbolOf V 3 ++ symbolOf V 4 ++ symbolOf V 5 ++ symbolOf V 6
      ++ symbolOf V 7 = V := by
  apply BitVec.eq_of_getLsbD_eq
  intro i hi
  simp only [symbolOf, BitVec.getLsbD_append, BitVec.getLsbD_extractLsb']
  interval_cases i <;> simp

/-- A group is the concatenation of its five bytes. -/
theorem append_byteOf (V : Group) :
    byteOf V 0 ++ byteOf V 1 ++ byteOf V 2 ++ byteOf V 3 ++ byteOf V 4 = V := by
  apply BitVec.eq_of_getLsbD_eq
  intro i hi
  simp only [byteOf, BitVec.getLsbD_append, BitVec.getLsbD_extractLsb']
  interval_cases i <;> simp

/-- The bytes of a concatenation of five bytes. -/
theorem byteOf_append (b0 b1 b2 b3 b4 : Byte) :
    byteOf (b0 ++ b1 ++ b2 ++ b3 ++ b4) 0 = b0 ∧ byteOf (b0 ++ b1 ++ b2 ++ b3 ++ b4) 1 = b1 ∧
    byteOf (b0 ++ b1 ++ b2 ++ b3 ++ b4) 2 = b2 ∧ byteOf (b0 ++ b1 ++ b2 ++ b3 ++ b4) 3 = b3 ∧
    byteOf (b0 ++ b1 ++ b2 ++ b3 ++ b4) 4 = b4 := by
  refine ⟨?_, ?_, ?_, ?_, ?_⟩ <;>
  · apply BitVec.eq_of_getLsbD_eq
    intro i hi
    simp only [byteOf, BitVec.getLsbD_append, BitVec.getLsbD_extractLsb']
    interval_cases i <;> simp

/-- The symbols of a concatenation of eight symbols. -/
theorem symbolOf_append (v0 v1 v2 v3 v4 v5 v6 v7 : Symbol) (k : Nat) (hk : k < 8) :
    symbolOf (v0 ++ v1 ++ v2 ++ v3 ++ v4 ++ v5 ++ v6 ++ v7) k = [v0, v1, v2, v3, v4, v5, v6, v7][k] := by
  interval_cases k <;>
  · apply BitVec.eq_of_getLsbD_eq
    intro i hi
    simp only [symbolOf, BitVec.getLsbD_append, BitVec.getLsbD_extractLsb']
    interval_cases i <;> simp

/-- Symbol `k` of a group as arithmetic: `(V >> (35 - 5k)) & 0x1F`. -/
theorem symbolOf_toNat (V : Group) (k : Nat) : (symbolOf V k).toNat = V.toNat / 2 ^ (35 - 5 * k) % 32 := by
  simp [symbolOf, BitVec.extractLsb'_toNat, Nat.shiftRight_eq_div_pow]

/-- Byte `i` of a group as arithmetic: `(V >> (32 - 8i)) & 0xFF`. -/
theorem byteOf_toNat (V : Group) (i : Nat) : (byteOf V i).toNat = V.toNat / 2 ^ (32 - 8 * i) % 256 := by
  simp [byteOf, BitVec.extractLsb'_toNat, Nat.shiftRight_eq_div_pow]

theorem append_toNat {w v : Nat} (x : BitVec w) (y : BitVec v) : (x ++ y).toNat = x.toNat * 2 ^ v + y.toNat := by
  rw [BitVec.toNat_append, Nat.shiftLeft_eq, Nat.mul_comm, ← Nat.two_pow_add_eq_or_of_lt y.isLt]

/-- The value of a group as a sum over its bytes (R92). -/
theorem groupValue_toNat (T : Nat → Byte) (n g : Nat) :
    (groupValue T n g).toNat =
      (groupByte T n (5 * g)).toNat * 2 ^ 32 + (groupByte T n (5 * g + 1)).toNat * 2 ^ 24 +
      (groupByte T n (5 * g + 2)).toNat * 2 ^ 16 + (groupByte T n (5 * g + 3)).toNat * 2 ^ 8 +
      (groupByte T n (5 * g + 4)).toNat := by
  simp only [groupValue, append_toNat]; ring

/-- The value of a chunk as a sum over its symbols (R112). -/
theorem chunkValue_toNat (inv : Byte → Option Symbol) (T : Nat → Byte) (len j : Nat) :
    (chunkValue inv T len j).toNat =
      (symbolValue inv T len (8 * j)).toNat * 2 ^ 35 + (symbolValue inv T len (8 * j + 1)).toNat * 2 ^ 30 +
      (symbolValue inv T len (8 * j + 2)).toNat * 2 ^ 25 + (symbolValue inv T len (8 * j + 3)).toNat * 2 ^ 20 +
      (symbolValue inv T len (8 * j + 4)).toNat * 2 ^ 15 + (symbolValue inv T len (8 * j + 5)).toNat * 2 ^ 10 +
      (symbolValue inv T len (8 * j + 6)).toNat * 2 ^ 5 + (symbolValue inv T len (8 * j + 7)).toNat := by
  simp only [chunkValue, append_toNat]; ring

end Sys2Proof.Machine
end

