-- ==== Sys2Proof/Laws/PerInstr.lean ====
section
/-! SUPPORT. A statement about every instruction as syntax, one lemma per constructor: its word is accepted by its own row of the
opcode table and by no other (30_encoding.md R62). -/

namespace Sys2Proof.Laws.EncodeMatchesRow

/-- The word of a well-formed instruction matches the row of its mnemonic and no other row. -/
def Statement (i : Instr) : Prop :=
  i.wellFormed = true → ∀ r ∈ opcodeTable, r.accepts (encode i) = (r.mnemonic == instrMnemonic i)

theorem clrpad : Statement .clrpad := by intro _; decide
theorem encsz : Statement .encsz := by intro _; decide
theorem decsz : Statement .decsz := by intro _; decide
theorem enc : Statement .enc := by intro _; decide
theorem padd : Statement .padd := by intro _; decide
theorem dec : Statement .dec := by intro _; decide

theorem setpad (b : Byte) : Statement (.setpad b) := by
  revert b; simp only [Statement]; decide +kernel

theorem ldcfg (imm : Byte) : Statement (.ldcfg imm) := by
  revert imm; simp only [Statement]; decide +kernel

end Sys2Proof.Laws.EncodeMatchesRow
end

