-- ==== Sys2Proof/Laws/Text.lean ====
section
/-! SUPPORT. The laws of texts: where a DEC stops consuming (43_decode.md R110, R115), what its contract is (R108), and the values of
partial groups and chunks as sums (42_encode.md R95, 43_decode.md R116). -/

namespace Sys2Proof.Machine

theorem cfgPadOption_eq_some (c : BitVec 11) (b : Byte) : cfgPadOption c = some b ↔ cfgPE c = true ∧ b = cfgPad c := by
  simp only [cfgPadOption]; split <;> rename_i h
  · simp only [Option.some.injEq, h, true_and]; exact eq_comm
  · simp only [h, reduceCtorEq, false_iff, not_and]; exact fun h => h.elim

/-- The text is consumed up to exactly one point (R115). -/
theorem consumesTo_iff (s : State) (c ns : Nat) : consumesTo s c ns ↔ bodyChunks s.arg0 = c ∧ decTailSymbols s = ns := by
  have hb := bodyChunks_tail s.arg0
  have ht : s.arg0 ≠ 0 → 1 ≤ tailLength s.arg0 := by intro h; simp only [tailLength, if_neg h]; omega
  have h0 : s.arg0 = 0 → tailLength s.arg0 = 0 := by intro h; simp [tailLength, h]
  have hT := tailStop_spec (cfgPadOption s.cfg) (ibufByte s) s.arg0 ns
  simp only [consumesTo, decTailSymbols]
  constructor
  · rintro ⟨tail, h1, h2, h3, h4, h5, h6⟩
    obtain rfl : bodyChunks s.arg0 = c := by omega
    exact ⟨rfl, hT.mpr ⟨by omega, fun j hj e => h5 j hj ((cfgPadOption_eq_some _ _).mp e),
      fun hlt => (cfgPadOption_eq_some _ _).mpr (h6 (by omega))⟩⟩
  · rintro ⟨rfl, h⟩
    obtain ⟨h1, h2, h3⟩ := hT.mp h
    exact ⟨tailLength s.arg0, hb.1, hb.2, ht, h1, fun k hk e => h2 k hk ((cfgPadOption_eq_some _ _).mpr e),
      fun hlt => (cfgPadOption_eq_some _ _).mp (h3 hlt)⟩

/-- The contract of DEC in the terms of its checks. -/
theorem decContract_iff (s : State) :
    decContract s ↔ slicesInRange s = true ∧ ∃ size, stateDecodedSize s = some size ∧ size ≤ s.arg1 := by
  rw [slicesInRange_iff]; simp [decContract, stateDecodedSize, and_assoc]

theorem badSymbolCount_eq_true (k : Nat) : badSymbolCount k = true ↔ k = 1 ∨ k = 3 ∨ k = 6 := by
  simp [badSymbolCount, or_assoc]

theorem badSymbolCount_eq_false (k : Nat) : badSymbolCount k = false ↔ k ≠ 1 ∧ k ≠ 3 ∧ k ≠ 6 := by
  simp [badSymbolCount, and_assoc]

theorem decTailSymbols_le (s : State) : decTailSymbols s ≤ 8 := (tailStop_le _ _ _).trans (bodyChunks_tail _).2

/-- Without a pad byte the whole tail is consumed. -/
theorem decTailSymbols_unpadded {s : State} (h : cfgPE s.cfg = false) : decTailSymbols s = tailLength s.arg0 := by
  have : cfgPadOption s.cfg = none := by simp [cfgPadOption, h]
  rw [decTailSymbols, this, tailStop_spec]; simp

theorem decCount_empty {s : State} (h : s.arg0 = 0) : decCount s = 0 := by
  have := tailStop_le (cfgPadOption s.cfg) (ibufByte s) s.arg0
  simp only [tailLength, h, if_true, Nat.le_zero] at this
  simp [decCount, bodyChunks, tailLength, h, decTailSymbols, this, tailBytes]

/-- A partial group's value as a sum (42_encode.md R95). -/
theorem sum_groupBytes (f : Nat → Nat) (r : Nat) (h : r < 5) :
    ((List.range r).map fun k => f k * 2 ^ (32 - 8 * k)).sum =
      (if 0 < r then f 0 else 0) * 2 ^ 32 + (if 1 < r then f 1 else 0) * 2 ^ 24 + (if 2 < r then f 2 else 0) * 2 ^ 16 +
      (if 3 < r then f 3 else 0) * 2 ^ 8 + (if 4 < r then f 4 else 0) := by
  interval_cases r <;> simp only [List.range_succ, List.range_zero, List.map_append, List.map_nil, List.map_cons,
    List.sum_append, List.sum_cons, List.sum_nil, List.nil_append] <;> norm_num

/-- A chunk's value as a sum (43_decode.md R112, R116). -/
theorem sum_chunkSymbols (f : Nat → Nat) (ns : Nat) (h : ns ≤ 8) :
    ((List.range ns).map fun k => f k * 2 ^ (35 - 5 * k)).sum =
      (if 0 < ns then f 0 else 0) * 2 ^ 35 + (if 1 < ns then f 1 else 0) * 2 ^ 30 + (if 2 < ns then f 2 else 0) * 2 ^ 25 +
      (if 3 < ns then f 3 else 0) * 2 ^ 20 + (if 4 < ns then f 4 else 0) * 2 ^ 15 + (if 5 < ns then f 5 else 0) * 2 ^ 10 +
      (if 6 < ns then f 6 else 0) * 2 ^ 5 + (if 7 < ns then f 7 else 0) := by
  interval_cases ns <;> simp only [List.range_succ, List.range_zero, List.map_append, List.map_nil, List.map_cons,
    List.sum_append, List.sum_cons, List.sum_nil, List.nil_append] <;> norm_num

/-- The symbol value of state `s` at an index, as the statements write it. -/
theorem symbolValue_toNat (s : State) (len i : Nat) :
    (symbolValue (stateInv s) (ibufByte s) len i).toNat = if i < len then textSymbol s i else 0 := by
  simp only [symbolValue]; split <;> simp [textSymbol, stateInv]

/-- How a DEC ends, and the bytes below its count, depend on its operands only (10_state.md R37). -/
theorem execDec_congr {s u t v : State} (h : sameOperands s u) (hs' : execDec s = .next t) (hu' : execDec u = .next v) :
    sameEnding v t ∧ (∀ j, j < t.res → obufByte v j = obufByte t j) := by
  obtain ⟨h1, h2, h3, h4, h5, h6⟩ := h
  have hi : ibufByte u = ibufByte s := ibufByte_congr h5 h6
  have e1 : slicesInRange u = slicesInRange s := by simp [slicesInRange, outputInRange, h1, h3, h4]
  have e2 : stateDecodedSize u = stateDecodedSize s := by simp [stateDecodedSize, h1, h2, h3]
  have e3 : decTailSymbols u = decTailSymbols s := by simp [decTailSymbols, h2, h3, hi]
  have e4 : decConsumed u = decConsumed s := by simp [decConsumed, h2, h3, hi]
  have e5 : stateInv u = stateInv s := by funext b; simp [stateInv, h1, h2]
  have e6 : decInvalid u = decInvalid s := by simp [decInvalid, e4, e5, hi]
  have e7 : decCount u = decCount s := by simp [decCount, h3, e3]
  have e8 : decByte u = decByte s := by funext j; simp [decByte, e4, e5, hi]
  simp only [execDec, e1, e2, h3, h4] at hu'
  simp only [execDec] at hs'
  split at hs'
  · cases hs'; simp_all
    obtain rfl := hu'; simp [sameEnding]
  · rename_i hr; rw [if_neg hr] at hu'
    split at hs'
    · rename_i hn; simp only [hn] at hu'; cases hs'; cases hu'; simp [sameEnding]
    · rename_i size hn; simp only [hn] at hu'
      split at hs'
      · rename_i hc; rw [if_pos hc] at hu'; cases hs'; cases hu'; simp [sameEnding]
      · rename_i hc; rw [if_neg hc] at hu'
        split at hs'
        · rename_i hb; rw [if_pos hb] at hu'; cases hs'; cases hu'; simp [sameEnding]
        · rename_i hb; rw [if_neg hb] at hu'; cases hs'; cases hu'
          simp only [consumeText, e6, e3, e7, h4, hi]
          split
          · simp [sameEnding]
          · split
            · simp [sameEnding]
            · split
              · simp [sameEnding]
              · by_cases h0 : s.arg0 = 0
                · simp [finishDec, h0, h3, sameEnding]
                · refine ⟨by simp [finishDec, h0, h3, sameEnding, e7], ?_⟩
                  intro j hj
                  have hj : j < decCount s := by simpa [finishDec, h0] using hj
                  rw [obufByte_finishDec h0, obufByte_finishDec (by rw [h3]; exact h0), e7, e8, if_pos hj, if_pos hj]

end Sys2Proof.Machine
end

