-- ==== Sys2Proof/Tests/Slice0.lean ====
section
/-! SUPPORT. Small tests of one step each, with results from spec/95_test_vectors.md (the vector is named), the ill-formed terms the
checks refuse, and for every obligation with hypotheses a state that meets them. -/

namespace Sys2Proof.Tests

open Sys2Proof.Machine

-- One theorem after the other: many small theorems at once would need a thread each.
set_option Elab.async false

/-- The reset state with CFG, ARG0, ARG1 and the first bytes of IBUF as given. -/
def block (cfg : BitVec 11) (arg0 arg1 : Nat) (text : List Byte) : State :=
  { State.reset with cfg := cfg, arg0 := arg0, arg1 := arg1, ibuf := (List.range text.length).zip text }

/-- What the host reads after a command. -/
structure Registers where
  status : BitVec 8
  res : Nat
  errpos : Nat
  errbyte : Byte
  cfg : BitVec 11
  deriving DecidableEq, Repr

/-- STATUS, RES, ERRPOS, ERRBYTE and CFG after a command. -/
def after (o : Host.Outcome State Fault Refusal) : Option Registers :=
  match o with
  | .next t => some ⟨statusWord t, t.res, t.errpos, t.errbyte, t.cfg⟩
  | .fault _ => none
  | .refused _ => none

/-- The first bytes of OBUF after a command. -/
def output (o : Host.Outcome State Fault Refusal) (count : Nat) : List Byte :=
  match o with
  | .next t => (List.range count).map (obufByte t)
  | .fault _ => []
  | .refused _ => []

/-- What a host call gives back. -/
def callResult (o : Host.Outcome CallEnd Fault Refusal) : Option CallResult :=
  match o with
  | .next e => some e.result
  | .fault _ => none
  | .refused _ => none

/-- "f". -/
def textF : List Byte := [0x66#8]
/-- "foobar". -/
def textFoobar : List Byte := [0x66#8, 0x6F#8, 0x6F#8, 0x62#8, 0x61#8, 0x72#8]
/-- "MY======". -/
def textMY : List Byte := [0x4D#8, 0x59#8, 0x3D#8, 0x3D#8, 0x3D#8, 0x3D#8, 0x3D#8, 0x3D#8]
/-- "MZXW6YTBOI". -/
def textMZ : List Byte := [0x4D#8, 0x5A#8, 0x58#8, 0x57#8, 0x36#8, 0x59#8, 0x54#8, 0x42#8, 0x4F#8, 0x49#8]
/-- "======". -/
def sixPads : List Byte := List.replicate 6 0x3D#8
/-- "M=======" (vector X54). -/
def textM : List Byte := 0x4D#8 :: 0x3D#8 :: sixPads

/-! ## What the checks refuse -/

theorem test_illformed_ldcfg : (Instr.ldcfg 4#8).wellFormed = false := by decide
theorem test_illformed_lenW : ¬ ({ defaultParams with lenW := 15 } : Params).wf := fun h => absurd h.1 (by decide)
theorem test_illformed_ibufSize : ¬ ({ defaultParams with ibufSize := 0 } : Params).wf := fun h => absurd h.2.1 (by decide)
theorem test_illformed_ibufSize_large : ¬ ({ defaultParams with ibufSize := 2 ^ 32 } : Params).wf :=
  fun h => absurd h.2.1 (by decide)
theorem test_illformed_obufSize : ¬ ({ defaultParams with obufSize := 0 } : Params).wf := fun h => absurd h.2.2.1 (by decide)
theorem test_illformed_symbols_repeat : ¬ symTableWf (Vector.replicate 32 0x41#8) := by decide +kernel
theorem test_illformed_symbol_not_ascii : ¬ symTableWf (defaultParams.symStandard.set 0 0x80#8) := by decide +kernel
theorem test_illformed_pad_symbol :
    ¬ ({ defaultParams with symStandard := defaultParams.symStandard.set 0 0x3D#8 } : Params).wf :=
  fun h => absurd h.2.2.2.2.1.1 (by decide +kernel)
theorem test_illformed_invalid : ¬ ({ defaultParams with invalid := 31#8 } : Params).wf :=
  fun h => absurd h.2.2.2.2.2 (by decide)
theorem test_standard_table : symTableWf defaultParams.symStandard := by decide +kernel
theorem test_extendedHex_table : symTableWf defaultParams.symExtendedHex := by decide +kernel
theorem test_crockford_table : symTableWf defaultParams.symCrockford := by decide +kernel
theorem test_zBase32_table : symTableWf defaultParams.symZBase32 := by decide +kernel
theorem test_default_wf : defaultParams.wf :=
  ⟨by decide, by decide, by decide, ⟨test_standard_table, test_extendedHex_table, test_crockford_table, test_zBase32_table⟩,
    by decide +kernel, by decide⟩

/-! ## Decoding: the words of 30_encoding.md R62, written out bit by bit, and the illegal words of R66 -/

theorem test_decode_ldcfg : decodeTableWord 16 0b0001000000000011 = some (.ldcfg 3#8) := by decide
theorem test_decode_clrpad : decodeTableWord 16 0b0010000000000000 = some .clrpad := by decide
theorem test_decode_setpad : decodeTableWord 16 0b0010000100101010 = some (.setpad 0x2A#8) := by decide
theorem test_decode_encsz : decodeTableWord 16 0b0011000000000000 = some .encsz := by decide
theorem test_decode_decsz : decodeTableWord 16 0b0100000000000000 = some .decsz := by decide
theorem test_decode_enc : decodeTableWord 16 0b0101000000000000 = some .enc := by decide
theorem test_decode_padd : decodeTableWord 16 0b0110000000000000 = some .padd := by decide
theorem test_decode_dec : decodeTableWord 16 0b0111000000000000 = some .dec := by decide

/-- E23 to E28. -/
theorem test_illegal_words :
    [0x0000, 0x0001, 0x1004, 0x1100, 0x1200, 0x2001, 0x20FF, 0x2200, 0x2300, 0x3001, 0x3100, 0x4800, 0x5001, 0x6100, 0x7001,
      0x8000, 0xF000, 0xFFFF].map (decodeTableWord 16) = List.replicate 18 none := by decide
/-- E29: bits above bit 15. -/
theorem test_illegal_upper_bits : decodePort 0x10000 = .error .upperPortBits := by rfl
theorem test_illegal_opcode : decodePort 0x8000 = .error .opcode := by rfl
theorem test_illegal_z : decodePort 0x1200 = .error .zField := by rfl
theorem test_illegal_p : decodePort 0x3100 = .error .padFlag := by rfl
theorem test_illegal_imm : decodePort 0x20FF = .error .immediate := by rfl

/-! ## Commands -/

/-- E8. -/
theorem test_ldcfg_discards_pad : after (exec (.ldcfg 2#8) (block 0x12A#11 0 0 [])) = some ⟨0x00#8, 0, 0, 0#8, 0x400#11⟩ := by
  decide +kernel
/-- E2. -/
theorem test_ldcfg_hex : after (exec (.ldcfg 1#8) (block 0x13D#11 0 0 [])) = some ⟨0x00#8, 0, 0, 0#8, 0x33D#11⟩ := by
  decide +kernel
/-- E6. -/
theorem test_clrpad : after (exec .clrpad (block 0x12A#11 0 0 [])) = some ⟨0x00#8, 0, 0, 0#8, 0x000#11⟩ := by decide +kernel
/-- E10. -/
theorem test_setpad : after (exec (.setpad 0x55#8) (block 0x53D#11 0 0 [])) = some ⟨0x00#8, 0, 0, 0#8, 0x555#11⟩ := by
  decide +kernel
/-- E19: the last symbol of the table. -/
theorem test_setpad_symbol : after (exec (.setpad 0x37#8) (block 0x1FF#11 0 0 [])) = some ⟨0x42#8, 0, 0, 0#8, 0x1FF#11⟩ := by
  decide +kernel
/-- Z1, Z2. -/
theorem test_encsz_padded :
    after (exec .encsz (block 0x13D#11 2684354555 0 [])) = some ⟨0x00#8, 4294967288, 0, 0#8, 0x13D#11⟩ ∧
    after (exec .encsz (block 0x13D#11 2684354556 0 [])) = some ⟨0x12#8, 0, 0, 0#8, 0x13D#11⟩ := by decide +kernel
/-- Z4, Z5. -/
theorem test_encsz_unpadded :
    after (exec .encsz (block 0x000#11 536870911 0 [])) = some ⟨0x00#8, 858993458, 0, 0#8, 0x000#11⟩ ∧
    after (exec .encsz (block 0x000#11 536870912 0 [])) = some ⟨0x12#8, 0, 0, 0#8, 0x000#11⟩ := by decide +kernel
/-- Z7, Z19. -/
theorem test_decsz_padded :
    after (exec .decsz (block 0x13D#11 4294967295 0 [])) = some ⟨0x00#8, 2684354555, 0, 0#8, 0x13D#11⟩ ∧
    after (exec .decsz (block 0x13D#11 10 0 [])) = some ⟨0x00#8, 5, 0, 0#8, 0x13D#11⟩ := by decide +kernel
/-- Z9, Z10. -/
theorem test_decsz_unpadded :
    after (exec .decsz (block 0x000#11 858993459 0 [])) = some ⟨0x00#8, 536870911, 0, 0#8, 0x000#11⟩ ∧
    after (exec .decsz (block 0x000#11 858993460 0 [])) = some ⟨0x12#8, 0, 0, 0#8, 0x000#11⟩ := by decide +kernel
/-- V3. -/
theorem test_enc_text :
    output (exec .enc (block 0x13D#11 6 16 textFoobar)) 16 = textMZ ++ sixPads := by decide +kernel
/-- V6: "c3zs6aubqe". -/
theorem test_enc_zbase32 :
    output (exec .enc (block 0x600#11 6 10 textFoobar)) 10 =
      [0x63#8, 0x33#8, 0x7A#8, 0x73#8, 0x36#8, 0x61#8, 0x75#8, 0x62#8, 0x71#8, 0x65#8] := by decide +kernel
/-- A7, A8. -/
theorem test_padd :
    after (exec .padd (block 0x13D#11 6 6 [])) = some ⟨0x00#8, 6, 0, 0#8, 0x13D#11⟩ ∧
    output (exec .padd (block 0x13D#11 6 6 [])) 6 = sixPads ∧
    after (exec .padd (block 0x13D#11 6 5 [])) = some ⟨0x22#8, 0, 0, 0#8, 0x13D#11⟩ := by decide +kernel
/-- A12, A14. -/
theorem test_padd_unpadded :
    after (exec .padd (block 0x400#11 1 0 [])) = some ⟨0x00#8, 0, 0, 0#8, 0x400#11⟩ ∧
    after (exec .padd (block 0x400#11 1 8193 [])) = some ⟨0x62#8, 0, 0, 0#8, 0x400#11⟩ := by decide +kernel
/-- V9. -/
theorem test_dec_text : output (exec .dec (block 0x13D#11 16 10 (textMZ ++ sixPads))) 6 = textFoobar := by decide +kernel
/-- X31: a pad byte in a body chunk. -/
theorem test_dec_pad_in_body :
    after (exec .dec (block 0x13D#11 16 10 (textMY ++ textMY))) = some ⟨0x08#8, 0, 2, 0x3D#8, 0x13D#11⟩ := by decide +kernel
/-- H1. -/
theorem test_reset_registers : (List.range 8).map (readRegister State.reset) = [0, 0, 0x13D, 0, 0, 0, 0, 0] := by decide +kernel
/-- E12: a CMD write while HALTED is discarded. -/
theorem test_halted_discards :
    after (step { (block 0x555#11 0 0 []).raiseFatal .config with port := [.command 0x1000 0] }) =
      some ⟨0x42#8, 0, 0, 0#8, 0x555#11⟩ := by decide +kernel

/-! ## Witnesses: for every obligation with hypotheses, a state and operands that meet them -/

/-- A block that runs ENC, with accesses to come. -/
def busyBlock (window : Nat) (port : List PortEvent) : State :=
  { block 0x13D#11 1 8 textF with phase := .busy 0x5000 window, port := port }

/-- An idle block with events to come. -/
def idleBlock (port : List PortEvent) : State := { block 0x13D#11 1 8 textF with port := port }

/-- A halted block with events to come. -/
def haltedBlock (port : List PortEvent) : State := { (block 0x13D#11 1 7 textF).raiseFatal .outTooSmall with port := port }

theorem witness_DecodeOfEncode :
    (Instr.ldcfg 0#8).wellFormed = true ∧ (Instr.ldcfg 3#8).wellFormed = true ∧ (Instr.setpad 0xFF#8).wellFormed = true := by
  decide
theorem witness_EncodeOfDecode :
    (decodePort 0x2100 = .ok (.setpad 0#8) ∧ (encode (.setpad 0#8)).toNat = 0x2100) ∧
    (decodePort 0x7000 = .ok .dec ∧ (encode .dec).toNat = 0x7000) := ⟨⟨rfl, rfl⟩, ⟨rfl, rfl⟩⟩
theorem witness_StepRunsDecodedCommand :
    ((busyBlock 0 [.readReg 1]).phase = .busy 0x5000 0 ∧ decodePort 0x5000 = .ok .enc) ∧
    ((busyBlock 2 []).phase = .busy 0x5000 2 ∧ (busyBlock 2 []).port = []) ∧
    decodeTableWord 16 0x5000 = some .enc := ⟨⟨rfl, rfl⟩, ⟨rfl, rfl⟩, rfl⟩
theorem witness_CmdWriteStartsCommand :
    (idleBlock [.command 0x5000 3, .readReg 1]).phase = .idle ∧
    (idleBlock [.command 0x5000 3, .readReg 1]).port = [.command 0x5000 3, .readReg 1] := ⟨rfl, rfl⟩
/-- The same three statements for a CMD write by register 0, in each phase. -/
theorem witness_CmdWrite_register :
    isCmdWrite (.writeReg 0 0x5000) 0x5000 0 ∧ isCmdWrite (.command 0x5000 3) 0x5000 3 ∧
    ((idleBlock [.writeReg 0 0x5000]).phase = .idle ∧ (idleBlock [.writeReg 0 0x5000]).port = [.writeReg 0 0x5000]) ∧
    ((haltedBlock [.writeReg 0 0x5000]).phase = .halted .outTooSmall ∧
      (haltedBlock [.writeReg 0 0x5000]).port = [.writeReg 0 0x5000]) ∧
    ((busyBlock 1 [.writeReg 0 0x5000]).phase = .busy 0x5000 (0 + 1) ∧
      (busyBlock 1 [.writeReg 0 0x5000]).port = [.writeReg 0 0x5000]) := by
  decide
theorem witness_IllegalCommandHalts_upper :
    (idleBlock [.command 0x15000 3]).phase = .idle ∧ 2 ^ 16 ≤ 0x15000 % 2 ^ (idleBlock []).par.lenW := by decide
theorem witness_IllegalCommandHalts_row :
    (idleBlock [.command 0x1004 3]).phase = .idle ∧
    ∀ r ∈ opcodeTable, r.accepts (BitVec.ofNat 16 (0x1004 % 2 ^ (idleBlock []).par.lenW)) = false := by decide
theorem witness_CmdWriteByPhase :
    (idleBlock [.command 0x5000 0]).phase = .idle ∧ (haltedBlock [.command 0x5000 0]).phase = .halted .outTooSmall ∧
    (busyBlock 1 [.command 0x5000 0]).phase = .busy 0x5000 1 := ⟨rfl, rfl, rfl⟩
theorem witness_HaltedUntilReset :
    ((haltedBlock [.reset]).phase = .halted .outTooSmall ∧ ∃ t, step (haltedBlock [.reset]) = .next t) ∧
    ((haltedBlock [.writeReg 4 8]).phase = .halted .outTooSmall ∧ ∃ t, step (haltedBlock [.writeReg 4 8]) = .next t) :=
  ⟨⟨rfl, _, rfl⟩, ⟨rfl, _, rfl⟩⟩
theorem witness_ResetEventGivesResetState :
    ((haltedBlock [.reset]).port = [.reset] ∧ ∀ w, (haltedBlock [.reset]).phase ≠ .busy w 0) ∧
    ((busyBlock 1 [.reset]).port = [.reset] ∧ ∀ w, (busyBlock 1 [.reset]).phase ≠ .busy w 0) := by
  refine ⟨⟨rfl, fun w h => ?_⟩, ⟨rfl, fun w h => ?_⟩⟩ <;> cases h
theorem witness_StatusReadWhileBusy :
    (busyBlock 1 [.readReg 1]).phase = .busy 0x5000 (0 + 1) ∧ (busyBlock 1 [.readReg 1]).port = [.readReg 1] := ⟨rfl, rfl⟩
theorem witness_OtherAccessWhileBusyStops :
    (busyBlock 1 [.readReg 2]).phase = .busy 0x5000 (0 + 1) ∧ (busyBlock 1 [.readReg 2]).port = [.readReg 2] ∧
    PortEvent.readReg 2 ≠ .readReg 1 ∧ PortEvent.readReg 2 ≠ .reset := ⟨rfl, rfl, by decide, by decide⟩
theorem witness_RegisterAccessRules :
    (∀ w k, (haltedBlock []).phase ≠ .busy w k) ∧
    (∀ w k, (idleBlock []).phase ≠ .busy w k) ∧ (idleBlock [.writeReg 0 5]).port = [.writeReg 0 5] ∧
    (haltedBlock [.writeReg 0 5]).port = [.writeReg 0 5] ∧
    ((haltedBlock [.writeReg 8 5]).port = [.writeReg 8 5] ∧ ((8 : Nat) ≠ 0 ∧ (8 : Nat) ≠ 3 ∧ (8 : Nat) ≠ 4)) ∧
    (haltedBlock [.writeReg 3 5]).port = [.writeReg 3 5] ∧ (haltedBlock [.writeReg 4 5]).port = [.writeReg 4 5] ∧
    (haltedBlock [.readReg 8]).port = [.readReg 8] := by
  refine ⟨fun w k h => ?_, fun w k h => ?_, rfl, rfl, ⟨rfl, by decide⟩, rfl, rfl, rfl⟩ <;> cases h
theorem witness_BufferAccessRules :
    (∀ w k, (idleBlock []).phase ≠ .busy w k) ∧
    ((idleBlock [.writeIbuf 4095 1#8]).port = [.writeIbuf 4095 1#8] ∧ 4095 < (idleBlock []).par.ibufSize) ∧
    ((idleBlock [.writeIbuf 4096 1#8]).port = [.writeIbuf 4096 1#8] ∧ (idleBlock []).par.ibufSize ≤ 4096) ∧
    ((idleBlock [.writeObuf 8191 1#8]).port = [.writeObuf 8191 1#8] ∧ 8191 < (idleBlock []).par.obufSize) ∧
    ((idleBlock [.writeObuf 8192 1#8]).port = [.writeObuf 8192 1#8] ∧ (idleBlock []).par.obufSize ≤ 8192) ∧
    ((idleBlock [.readIbuf 4096]).port = [.readIbuf 4096] ∧ ¬ 4096 < (idleBlock []).par.ibufSize) ∧
    ((idleBlock [.readObuf 8191]).port = [.readObuf 8191] ∧ 8191 < (idleBlock []).par.obufSize) := by
  refine ⟨fun w k h => ?_, ⟨rfl, by decide⟩, ⟨rfl, by decide⟩, ⟨rfl, by decide⟩, ⟨rfl, by decide⟩, ⟨rfl, by decide⟩,
    ⟨rfl, by decide⟩⟩
  cases h
theorem witness_StatusFieldsOfPhase :
    (haltedBlock []).Inv ∧ (State.reset.raiseError .errLength 0 0#8).Inv ∧ (State.reset.raiseError .errByte 9 0x55#8).Inv ∧
    (busyBlock 0 []).Inv ∧ (haltedBlock []).phase = .halted .outTooSmall := by
  refine ⟨⟨test_default_wf, ?_, ?_, ?_, ?_, ?_, ?_⟩, ⟨test_default_wf, ?_, ?_, ?_, ?_, ?_, ?_⟩,
    ⟨test_default_wf, ?_, ?_, ?_, ?_, ?_, ?_⟩, ⟨test_default_wf, ?_, ?_, ?_, ?_, ?_, ?_⟩, ?_⟩ <;> decide +kernel
theorem witness_StatusFieldsOfPhase_causes (c : FCause) :
    (State.reset.raiseFatal c).Inv ∧ (State.reset.raiseFatal c).phase = .halted c := by
  refine ⟨⟨test_default_wf, ?_, rfl, ?_, ?_, ?_, ?_⟩, rfl⟩ <;> cases c <;> decide +kernel
theorem witness_EveryAcceptedCommandEnds :
    (busyBlock 2 [.readReg 1, .readReg 1, .reset]).phase = .busy 0x5000 2 ∧
    ∀ ev ∈ (busyBlock 2 [.readReg 1, .readReg 1, .reset]).port.take 2, ev = .readReg 1 := by decide
theorem witness_ParametersNeverChange : ∃ t, step (haltedBlock [.reset]) = .next t := ⟨_, rfl⟩
theorem witness_LdcfgLoadsBuiltIn :
    (0x00#8).extractLsb' 0 2 = 0#2 ∧ (0x01#8).extractLsb' 0 2 = 1#2 ∧ (0x02#8).extractLsb' 0 2 = 2#2 ∧
    (0x03#8).extractLsb' 0 2 = 3#2 := by decide
theorem witness_SetpadInstallsPad :
    invEntry State.reset.par (cfgAlpha State.reset.cfg) 0x2A#8 = State.reset.par.invalid := by decide +kernel
theorem witness_SetpadOfSymbolHalts :
    invEntry State.reset.par (cfgAlpha State.reset.cfg) 0x41#8 ≠ State.reset.par.invalid := by decide +kernel
theorem witness_ConfigCommandsFrame :
    (∃ t, exec (.ldcfg 2#8) State.reset = .next t) ∧ (∃ t, exec .clrpad State.reset = .next t) ∧
    ∃ t, exec (.setpad 0x2A#8) State.reset = .next t := ⟨exec_next _ _, exec_next _ _, exec_next _ _⟩
theorem witness_DataCommandsKeepCfg :
    (∃ t, exec .encsz State.reset = .next t) ∧ (∃ t, exec .decsz State.reset = .next t) ∧
    (∃ t, exec .enc State.reset = .next t) ∧ (∃ t, exec .padd State.reset = .next t) ∧
    ∃ t, exec .dec State.reset = .next t := ⟨exec_next _ _, exec_next _ _, exec_next _ _, exec_next _ _, exec_next _ _⟩
theorem witness_EveryConfigurationReachable :
    State.reset.par.wf ∧ cfgLegal State.reset.par 0x73D#11 ∧ cfgLegal State.reset.par 0x400#11 ∧
    cfgLegal State.reset.par 0x1FF#11 := ⟨test_default_wf, by decide +kernel, by decide +kernel, by decide +kernel⟩
/-- The thresholds of Z1 and Z4, reached and passed by one. -/
theorem witness_EncszReturnsSize :
    State.reset.par.wf ∧
    (cfgPE (block 0x13D#11 2684354555 0 []).cfg = true ∧ 2684354555 ≤ 5 * 2 ^ (State.reset.par.lenW - 3) - 5) ∧
    (cfgPE (block 0x000#11 536870911 0 []).cfg = false ∧ 536870911 ≤ 2 ^ (State.reset.par.lenW - 3) - 1) :=
  ⟨test_default_wf, by decide +kernel, by decide +kernel⟩
theorem witness_EncszOverflowHalts :
    State.reset.par.wf ∧
    (cfgPE (block 0x13D#11 2684354556 0 []).cfg = true ∧ 5 * 2 ^ (State.reset.par.lenW - 3) - 5 < 2684354556) ∧
    (cfgPE (block 0x000#11 536870912 0 []).cfg = false ∧ 2 ^ (State.reset.par.lenW - 3) - 1 < 536870912) :=
  ⟨test_default_wf, by decide +kernel, by decide +kernel⟩
theorem witness_DecszReturnsSize :
    4294967295 < 2 ^ State.reset.par.lenW ∧ cfgPE (block 0x13D#11 4294967295 0 []).cfg = true ∧
    cfgPE (block 0x000#11 858993459 0 []).cfg = false ∧ 858993459 ≤ (2 ^ State.reset.par.lenW - 1) / 5 := by decide +kernel
theorem witness_DecszOverflowHalts :
    cfgPE (block 0x000#11 858993460 0 []).cfg = false ∧ (2 ^ State.reset.par.lenW - 1) / 5 < 858993460 := by decide +kernel
theorem witness_SizeCommandsFrame :
    (∃ t, exec .encsz (block 0x000#11 9 0 []) = .next t) ∧ ∃ t, exec .decsz (block 0x000#11 9 0 []) = .next t :=
  ⟨exec_next _ _, exec_next _ _⟩
theorem witness_SizeBounds :
    (encodedSize 32 true 6 = some 16 ∧ decodedSize 32 true 16 = some 10) ∧
    (encodedSize 32 false 6 = some 10 ∧ decodedSize 32 false 10 = some 6) ∧ encodedSize 32 true 11 = some 24 := by decide
theorem witness_EncWritesFullGroups :
    (block 0x13D#11 5 8 []).arg0 ≤ (block 0x13D#11 5 8 []).par.ibufSize ∧ 8 ≤ (block 0x13D#11 5 8 []).par.obufSize ∧
    encodedSize (block 0x13D#11 5 8 []).par.lenW (cfgPE (block 0x13D#11 5 8 []).cfg) 5 = some 8 ∧ 0 < 5 / 5 := by decide +kernel
theorem witness_EncWritesPartialGroup :
    (block 0x13D#11 6 16 []).arg0 ≤ (block 0x13D#11 6 16 []).par.ibufSize ∧ 16 ≤ (block 0x13D#11 6 16 []).par.obufSize ∧
    encodedSize (block 0x13D#11 6 16 []).par.lenW (cfgPE (block 0x13D#11 6 16 []).cfg) 6 = some 16 ∧ 6 = 5 * 1 + 1 := by
  decide +kernel
theorem witness_EncCountIsEncodedSize :
    (encodedSize 32 true 4 = some 8 ∧ encodedSize 32 false 4 = some 7 ∧ encodedSize 32 true 0 = some 0) ∧
    after (exec .enc (block 0x000#11 1 2 textF)) = some ⟨0x00#8, 2, 0, 0#8, 0x000#11⟩ := by decide +kernel
/-- The four ways of R105: K49, K54's overflow with a 16-bit LEN_W, K42, K43. -/
theorem witness_EncEndsOneOfFourWays :
    (block 0x13D#11 4097 8192 []).par.ibufSize < 4097 ∧ encodedSize 16 true 40956 = none ∧
    (encodedSize 32 true 1 = some 8 ∧ 7 < 8) ∧ 8 ≤ (block 0x13D#11 1 8 []).par.obufSize ∧
    (State.reset.par.wf ∧ State.reset.par.ibufSize ≤ 2 ^ (State.reset.par.lenW - 3) - 1) :=
  ⟨by decide, by decide, by decide, by decide, test_default_wf, by decide⟩
theorem witness_EncFrame : ∃ t, exec .enc (block 0x13D#11 1 20 textF) = .next t := exec_next _ _
theorem witness_PaddWritesPads :
    8192 ≤ (block 0x13D#11 1 8192 []).par.obufSize ∧ [0, 6, 4, 3, 1][6 % 5]? = some 6 ∧ [0, 6, 4, 3, 1][0 % 5]? = some 0 ∧
    cfgPE (block 0x13D#11 6 6 []).cfg = true ∧ cfgPE (block 0x400#11 1 0 []).cfg = false := by decide +kernel
theorem witness_PaddHalts :
    (block 0x400#11 1 8193 []).par.obufSize < 8193 ∧
    (5 ≤ (block 0x13D#11 6 5 []).par.obufSize ∧ cfgPE (block 0x13D#11 6 5 []).cfg = true ∧
      [0, 6, 4, 3, 1][6 % 5]? = some 6 ∧ 5 < 6) := by decide +kernel
theorem witness_PaddFrame : ∃ t, exec .padd (block 0x13D#11 3 8 []) = .next t := exec_next _ _

/-- A text meets the contract of DEC. -/
theorem contract_of {s : State} {size : Nat} (h1 : slicesInRange s = true) (h2 : stateDecodedSize s = some size)
    (h3 : size ≤ s.arg1) : decContract s := (decContract_iff s).mpr ⟨h1, size, h2, h3⟩

/-- V9: `c = 1` body chunk and `ns = 2` symbols of the tail. -/
theorem witness_DecWritesDecodedBytes :
    let s := block 0x13D#11 16 10 (textMZ ++ sixPads)
    decContract s ∧ (s.arg0 % 8 ≠ 1 ∧ s.arg0 % 8 ≠ 3 ∧ s.arg0 % 8 ≠ 6) ∧ consumesTo s 1 2 ∧ allSymbols s (8 * 1 + 2) ∧
      5 * 1 + 5 * 2 / 8 ≤ s.arg1 := by
  refine ⟨contract_of (size := 10) ?_ ?_ ?_, ?_, (consumesTo_iff _ _ _).mpr ?_, ?_, ?_⟩
  case refine_6 => unfold allSymbols; decide +kernel
  all_goals decide +kernel
/-- X15. -/
theorem witness_DecRejectsLength :
    decContract (block 0x13D#11 1 16 [0x4D#8]) ∧ (block 0x13D#11 1 16 [0x4D#8]).arg0 % 8 = 1 := by
  refine ⟨contract_of (size := 0) ?_ ?_ ?_, ?_⟩ <;> decide +kernel
/-- X31: position 2 in the body. -/
theorem witness_DecReportsInvalidByte :
    let s := block 0x13D#11 16 10 (textMY ++ textMY)
    decContract s ∧ (s.arg0 % 8 ≠ 1 ∧ s.arg0 % 8 ≠ 3 ∧ s.arg0 % 8 ≠ 6) ∧ consumesTo s 1 2 ∧ 2 < 8 * 1 + 2 ∧ allSymbols s 2 ∧
      invLookup s.par (cfgAlpha s.cfg) (ibufByte s 2) = none := by
  refine ⟨contract_of (size := 10) ?_ ?_ ?_, ?_, (consumesTo_iff _ _ _).mpr ?_, ?_, ?_, ?_⟩
  case refine_7 => unfold allSymbols; decide +kernel
  all_goals decide +kernel
/-- X54. -/
theorem witness_DecRejectsTailCount :
    let s := block 0x13D#11 8 16 textM
    decContract s ∧ (s.arg0 % 8 ≠ 1 ∧ s.arg0 % 8 ≠ 3 ∧ s.arg0 % 8 ≠ 6) ∧ consumesTo s 0 1 ∧ allSymbols s (8 * 0 + 1) := by
  refine ⟨contract_of (size := 5) ?_ ?_ ?_, ?_, (consumesTo_iff _ _ _).mpr ?_, ?_⟩
  case refine_6 => unfold allSymbols; decide +kernel
  all_goals decide +kernel
/-- X64. -/
theorem witness_DecOverrunHalts :
    let s := block 0x13D#11 10 5 textMZ
    decContract s ∧ (s.arg0 % 8 ≠ 1 ∧ s.arg0 % 8 ≠ 3 ∧ s.arg0 % 8 ≠ 6) ∧ consumesTo s 1 2 ∧ allSymbols s (8 * 1 + 2) ∧
      s.arg1 < 5 * 1 + 5 * 2 / 8 := by
  refine ⟨contract_of (size := 5) ?_ ?_ ?_, ?_, (consumesTo_iff _ _ _).mpr ?_, ?_, ?_⟩
  case refine_6 => unfold allSymbols; decide +kernel
  all_goals decide +kernel
/-- X71, X72; X73's overflow in a 16-bit LEN_W; X67. -/
theorem witness_DecContractBreachHalts :
    (block 0x13D#11 4097 8192 []).par.ibufSize < 4097 ∧ (block 0x13D#11 8 8193 []).par.obufSize < 8193 ∧
    (13113 ≤ ({ defaultParams with lenW := 16, ibufSize := 60000, obufSize := 65535 } : Params).ibufSize ∧
      decodedSize 16 false 13113 = none) ∧
    (decodedSize 32 true 8 = some 5 ∧ 4 < 5) := by decide +kernel
theorem witness_DecFrame :
    (∃ t, exec .dec (block 0x13D#11 16 10 (textMZ ++ sixPads)) = .next t) ∧
    (∃ t, exec .dec (block 0x13D#11 0 3 []) = .next t) ∧
    after (exec .dec (block 0x13D#11 8 4 textMY)) = some ⟨0x22#8, 0, 0, 0#8, 0x13D#11⟩ ∧
    after (exec .dec (block 0x13D#11 1 16 [0x4D#8])) = some ⟨0x04#8, 0, 0, 0#8, 0x13D#11⟩ :=
  ⟨exec_next _ _, exec_next _ _, by decide +kernel, by decide +kernel⟩
/-- X8's kind, X1 and X65: the three ways to meet the second hypothesis. -/
theorem witness_DecTotality :
    (decContract (block 0x000#11 2 1 textMY) ∧ cfgPE (block 0x000#11 2 1 textMY).cfg = false) ∧
    (decContract (block 0x13D#11 8 5 textMY) ∧ (block 0x13D#11 8 5 textMY).arg0 % 8 = 0) ∧
    (decContract (block 0x13D#11 10 9 textMZ) ∧ 5 * ((block 0x13D#11 10 9 textMZ).arg0 / 8) + 4 ≤ 9) := by
  refine ⟨⟨contract_of (size := 1) ?_ ?_ ?_, ?_⟩, ⟨contract_of (size := 5) ?_ ?_ ?_, ?_⟩,
    ⟨contract_of (size := 5) ?_ ?_ ?_, ?_⟩⟩ <;> decide +kernel
/-- X6, X1, X65 end with OK. -/
theorem witness_DecCountAgainstSize :
    after (exec .dec (block 0x000#11 2 1 textMY)) = some ⟨0x00#8, 1, 0, 0#8, 0x000#11⟩ ∧
    after (exec .dec (block 0x13D#11 8 5 textMY)) = some ⟨0x00#8, 1, 0, 0#8, 0x13D#11⟩ ∧
    after (exec .dec (block 0x13D#11 10 6 textMZ)) = some ⟨0x00#8, 6, 0, 0#8, 0x13D#11⟩ := by decide +kernel
/-- X1 and X44: the two texts differ behind the first pad byte only. -/
theorem witness_DecIgnoresBytesAfterPad :
    let s := block 0x13D#11 8 16 textMY
    consumesTo s 0 2 ∧ 8 * 0 + 2 < s.arg0 ∧
      (∀ i, i ≤ 8 * 0 + 2 → ibufByte { s with ibuf := Memory.write s.ibuf 7 0x21#8 } i = ibufByte s i) ∧
      ∃ t, exec .dec s = .next t := by
  refine ⟨(consumesTo_iff _ _ _).mpr ?_, ?_, ?_, exec_next _ _⟩
  · decide +kernel
  · decide +kernel
  · intro i hi
    obtain rfl | rfl | rfl : i = 0 ∨ i = 1 ∨ i = 2 := by omega
    all_goals rfl
/-- A BUSY state, an IDLE state with an event to come, and a HALTED state that meet the invariant and step. -/
theorem witness_StepKeepsInvariant :
    ((busyBlock 0 []).Inv ∧ ∃ t, step (busyBlock 0 []) = .next t) ∧
    ((idleBlock [.command 0x5000 2]).Inv ∧ ∃ t, step (idleBlock [.command 0x5000 2]) = .next t) ∧
    ((haltedBlock [.reset]).Inv ∧ ∃ t, step (haltedBlock [.reset]) = .next t) := by
  refine ⟨⟨⟨test_default_wf, ?_, ?_, ?_, ?_, ?_, ?_⟩, ?_⟩, ⟨⟨test_default_wf, ?_, ?_, ?_, ?_, ?_, ?_⟩, _, rfl⟩,
    ⟨⟨test_default_wf, ?_, ?_, ?_, ?_, ?_, ?_⟩, _, rfl⟩⟩
  case refine_7 => rw [step_run rfl (.inl rfl)]; exact runCommand_next _ _
  all_goals decide +kernel
theorem witness_WritesAreConfined : ∃ t, exec .dec (block 0x13D#11 8 5 textMY) = .next t := exec_next _ _
/-- A command for each ending of R132 that a default block can reach. -/
theorem witness_CommandEndings :
    State.reset.arg0 < 2 ^ State.reset.par.lenW ∧
    after (exec .encsz (block 0x13D#11 2684354556 0 [])) = some ⟨0x12#8, 0, 0, 0#8, 0x13D#11⟩ ∧
    after (exec .enc (block 0x13D#11 1 7 textF)) = some ⟨0x22#8, 0, 0, 0#8, 0x13D#11⟩ ∧
    after (exec .dec (block 0x13D#11 2 0 textMY)) = some ⟨0x32#8, 0, 0, 0#8, 0x13D#11⟩ ∧
    after (exec (.setpad 0x41#8) State.reset) = some ⟨0x42#8, 0, 0, 0#8, 0x13D#11⟩ ∧
    after (exec .padd (block 0x13D#11 1 8193 [])) = some ⟨0x62#8, 0, 0, 0#8, 0x13D#11⟩ := by decide +kernel
theorem witness_ResultsIgnoreObuf :
    after (exec .enc (block 0x13D#11 1 8 textF)) = some ⟨0x00#8, 8, 0, 0#8, 0x13D#11⟩ ∧
    after (exec .padd (block 0x13D#11 1 8 textF)) = some ⟨0x00#8, 6, 0, 0#8, 0x13D#11⟩ := by decide +kernel
/-- V2 and V8: the text of "f" in the IBUF of another block. -/
theorem witness_DecodeInvertsEncode :
    let s := block 0x13D#11 1 8 textF
    let u := block 0x13D#11 8 5 textMY
    s.par.wf ∧ cfgLegal s.par s.cfg ∧ exec .enc s = .next (finishEnc s) ∧ (finishEnc s).phase = .idle ∧ u.par = s.par ∧
      u.cfg = s.cfg ∧ u.arg0 = (finishEnc s).res ∧ (∀ i, i < (finishEnc s).res → ibufByte u i = obufByte (finishEnc s) i) ∧
      decContract u := by
  refine ⟨test_default_wf, by decide +kernel, execEnc_success (size := 8) ?_ ?_ ?_, rfl, rfl, rfl, rfl, ?_,
    contract_of (size := 5) ?_ ?_ ?_⟩ <;> decide +kernel
/-- "f" padded (8 bytes), unpadded (2 bytes), and PADD (6 bytes). -/
theorem witness_PaddedTextIsTextThenPads :
    let s := block 0x13D#11 1 8 textF
    cfgPE s.cfg = true ∧ after (exec .enc s) = some ⟨0x00#8, 8, 0, 0#8, 0x13D#11⟩ ∧
      after (exec .enc { s with cfg := makeCfg (cfgAlpha s.cfg) none }) = some ⟨0x00#8, 2, 0, 0#8, 0x000#11⟩ ∧
      after (exec .padd s) = some ⟨0x00#8, 6, 0, 0#8, 0x13D#11⟩ := by decide +kernel
/-- "foobar" is "fooba" followed by "r". -/
theorem witness_EncBlocksAreIndependent :
    let s := block 0x13D#11 6 16 textFoobar
    let x := block 0x13D#11 5 8 (textFoobar.take 5)
    let y := block 0x13D#11 1 8 [0x72#8]
    x.arg0 % 5 = 0 ∧ s.arg0 = x.arg0 + y.arg0 ∧ (List.range 5).map (ibufByte x) = (List.range 5).map (ibufByte s) ∧
      ibufByte y 0 = ibufByte s 5 ∧ after (exec .enc s) = some ⟨0x00#8, 16, 0, 0#8, 0x13D#11⟩ ∧
      after (exec .enc x) = some ⟨0x00#8, 8, 0, 0#8, 0x13D#11⟩ ∧ after (exec .enc y) = some ⟨0x00#8, 8, 0, 0#8, 0x13D#11⟩ := by
  decide +kernel
theorem witness_StagedDecoderGivesSameBytes :
    (4 * 1 ≤ 5 ∧ 2 ≤ 5 ∧ 5 * 5 + 2 ≤ 27 ∧ 5 * (4 * 1 - 1) + 8 ≤ 27) ∧ (4 * 1 ≤ 4 ∧ 5 * 4 + 3 ≤ 23 ∧ 5 * (4 * 1 - 1) + 8 ≤ 23) := by
  decide
/-- PRG5 step 3: DECODE of a padded text of length 10 has a size that is too small, so DEC halts and the sequence stops. -/
theorem test_decode_call_stops :
    callResult (runCall (fun _ => 0) (.decode 10) (block 0x13D#11 0 0 textMZ)) = some .stopped := by decide +kernel
/-- PRG2 step 4: the error (ERR_BYTE, 9, 0x55) of `CSQPYRK1EU`. -/
theorem test_decode_call_error :
    callResult (runCall (fun _ => 0) (.decode 10) (block 0x400#11 0 0
      [0x43#8, 0x53#8, 0x51#8, 0x50#8, 0x59#8, 0x52#8, 0x4B#8, 0x31#8, 0x45#8, 0x55#8])) = some (.error 2#2 9 0x55) := by
  decide +kernel
/-- PRG1 steps 2 to 4 and 6 to 7. -/
theorem test_encode_and_decode_calls :
    callResult (runCall (fun _ => 0) (.encodeDefault 6) (block 0x400#11 0 0 textFoobar)) = some (.text (textMZ ++ sixPads)) ∧
    callResult (runCall (fun _ => 0) (.decode 16) (block 0x13D#11 0 0 (textMZ ++ sixPads))) = some (.decoded textFoobar) := by
  decide +kernel
/-- PRG6 steps 2 and 3: ENCODE stops at the sizing command that overflows. -/
theorem test_encode_call_stops :
    callResult (runCall (fun _ => 0) (.encode 536870912) (block 0x000#11 0 0 [])) = some .stopped := by decide +kernel
/-- The clauses in order: any of the single commands; the largest text that fits (K47); the sizing threshold passed by one (Z2);
ARG0 above its buffer by one, and a size above its buffer in a block with a smaller OBUF; the DEC of V9; the sizing threshold of
DECSZ passed by one (Z10); both defaults, whose stops are met by the same lengths. -/
theorem witness_HostCallsGiveResults :
    (idleBlock []).par.wf ∧ (idleBlock []).phase = .idle ∧
    (4096 ≤ (idleBlock []).par.ibufSize ∧ encodedSize 32 true 4096 = some 6560 ∧ 6560 ≤ (idleBlock []).par.obufSize) ∧
    (2684354556 < 2 ^ (idleBlock []).par.lenW ∧ encodedSize 32 true 2684354556 = none) ∧
    (4097 < 2 ^ (idleBlock []).par.lenW ∧ encodedSize 32 true 4097 = some 6560 ∧ (idleBlock []).par.ibufSize < 4097) ∧
    (({ defaultParams with obufSize := 15 } : Params).wf ∧ encodedSize 32 true 6 = some 16 ∧
      ({ defaultParams with obufSize := 15 } : Params).obufSize < 16) ∧
    (16 < 2 ^ (idleBlock []).par.lenW ∧ decodedSize 32 true 16 = some 10 ∧
      ∃ v, exec .dec { idleBlock [] with arg0 := 16, arg1 := 10 } = .next v) ∧
    (858993460 < 2 ^ (idleBlock []).par.lenW ∧ decodedSize 32 false 858993460 = none ∧
      cfgPE (block 0x000#11 0 0 []).cfg = false) ∧
    (0 ≤ (idleBlock []).par.ibufSize ∧ encodedSize 32 true 0 = some 0 ∧ 0 ≤ (idleBlock []).par.obufSize) ∧
    (10 < 2 ^ (idleBlock []).par.lenW ∧ decodedSize 32 true 10 = some 5 ∧
      ∃ v, exec .dec { idleBlock [] with cfg := 0x13D#11, arg0 := 10, arg1 := 5 } = .next v) := by
  refine ⟨test_default_wf, rfl, ?_, ?_, ?_,
    ⟨⟨by decide, by decide, by decide, test_default_wf.2.2.2⟩, by decide, by decide⟩,
    ⟨by decide, by decide, exec_next _ _⟩, ?_, ?_,
    ⟨by decide, by decide, exec_next _ _⟩⟩ <;> decide +kernel

end Sys2Proof.Tests
end

section
/-! SUPPORT. What the step can do and what each operation of the state keeps of the invariant; the statements about the state
(10_state.md) are settled from these. -/

namespace Sys2Proof.Machine

/-! ### One step, said backwards -/

/-- An access that arrives while BUSY and does not stop the block is a STATUS read or a reset (70_reset_and_hazards.md R159). -/
theorem busyEvent_cases {s t : State} {ev : PortEvent} (h : s.busyEvent ev = .next t) :
    (ev = .readReg 1 ∧ t = s.busyStatusRead) ∨ (ev = .reset ∧ t = s.resetEvent) := by
  cases ev with
  | readReg index =>
    simp only [State.busyEvent] at h
    split at h
    · subst_vars; exact .inl ⟨rfl, (Host.Outcome.next.inj h).symm⟩
    · cases h
  | reset => exact .inr ⟨rfl, (Host.Outcome.next.inj h).symm⟩
  | command | writeReg | writeIbuf | readIbuf | writeObuf | readObuf => cases h

/-- What the running of an accepted command can do (60_exceptions.md R134, R142). -/
theorem runCommand_cases {w : Nat} {s t : State} (h : runCommand w s = .next t) :
    (∃ i, decodePort w = .ok i ∧ exec i s = .next t) ∨ (∃ e, decodePort w = .error e ∧ t = s.raiseFatal .illegalCmd) := by
  simp only [runCommand] at h
  split at h
  · exact .inl ⟨_, ‹_›, h⟩
  · exact .inr ⟨_, ‹_›, (Host.Outcome.next.inj h).symm⟩

/-- What a step that does not stop the block can do: nothing, the next port event, the command, or an access in the window of the
command. -/
theorem step_cases {s t : State} (h : step s = .next t) :
    ((∀ w k, s.phase ≠ .busy w k) ∧ s.port = [] ∧ t = s) ∨
    (∃ ev rest, (∀ w k, s.phase ≠ .busy w k) ∧ s.port = ev :: rest ∧ t = State.portEvent { s with port := rest } ev) ∨
    (∃ w k, s.phase = .busy w k ∧ runCommand w s = .next t) ∨
    (∃ w k ev rest, s.phase = .busy w (k + 1) ∧ s.port = ev :: rest ∧
      State.busyEvent { s with phase := .busy w k, port := rest } ev = .next t) := by
  by_cases hb : ∀ w k, s.phase ≠ .busy w k
  · cases hq : s.port with
    | nil =>
      rw [step_quiet hb hq] at h
      exact .inl ⟨hb, rfl, (Host.Outcome.next.inj h).symm⟩
    | cons ev rest =>
      rw [step_ready hb hq] at h
      exact .inr (.inl ⟨ev, rest, hb, rfl, (Host.Outcome.next.inj h).symm⟩)
  · push Not at hb
    obtain ⟨w, k, hp⟩ := hb
    by_cases hr : k = 0 ∨ s.port = []
    · rw [step_run hp hr] at h
      exact .inr (.inr (.inl ⟨w, k, hp, h⟩))
    · push Not at hr
      obtain ⟨k, rfl⟩ := Nat.exists_eq_succ_of_ne_zero hr.1
      obtain ⟨ev, rest, hq⟩ := List.exists_cons_of_ne_nil hr.2
      rw [step_busy hp hq] at h
      exact .inr (.inr (.inr ⟨w, k, ev, rest, hp, hq, h⟩))

/-! ### CFG -/

/-- A pad byte that is no symbol of the alphabet gives a legal CFG, and so does no pad byte (10_state.md R26). -/
theorem cfgLegal_makeCfg {p : Params} {a : Alphabet} {pad : Option Byte} (h : ∀ b, pad = some b → invLookup p a b = none) :
    cfgLegal p (makeCfg a pad) := by
  cases pad with
  | none => simp [cfgLegal]
  | some b => simpa [cfgLegal] using (invLookup_isNone p a b).mp (h b rfl)

/-- The built-in configurations are legal (40_config.md R72). -/
theorem cfgLegal_builtIn {p : Params} (h : p.wf) (a : Alphabet) : cfgLegal p (makeCfg a (builtInPad a)) :=
  cfgLegal_makeCfg fun b hb => (invLookup_eq_none h a b).mpr (Params.wf_builtInPad h hb)

/-- CFG at reset is the built-in Standard configuration (10_state.md R38). -/
theorem makeCfg_standard : makeCfg .standard (builtInPad .standard) = 0x13D#11 := by decide

/-! ### The invariant, operation by operation -/

/-- A LEN_W-bit value is what is left of any value a port carries (10_state.md R20). -/
theorem lenBits_lt (s : State) (v : Nat) : lenBits s v < 2 ^ s.par.lenW := Nat.mod_lt _ (Nat.two_pow_pos _)

/-- OBUF_SIZE is a LEN_W-bit value (00_scope.md R7). -/
theorem Params.wf_obufSize_lt {p : Params} (h : p.wf) : p.obufSize < 2 ^ p.lenW := by
  obtain ⟨-, -, ⟨-, hle⟩, -⟩ := h
  have := Nat.two_pow_pos p.lenW
  omega

section
variable {s : State}

theorem State.Inv.setCfg (h : s.Inv) {c : BitVec 11} (hc : cfgLegal s.par c) : (s.setCfg c).Inv := by
  obtain ⟨hp, hr, hw, -, hb, hs, he⟩ := h
  exact ⟨hp, hr, hw, hc, hb, hs, he⟩

theorem State.Inv.writeObuf (h : s.Inv) (f : Nat → Byte) {start count : Nat}
    (hc : count = 0 ∨ start + count ≤ s.par.obufSize) : (s.writeObuf f start count).Inv := by
  obtain ⟨hp, hr, hw, hc', ⟨hi, hi', ho, ho'⟩, hs, he⟩ := h
  exact ⟨hp, hr, hw, hc', ⟨hi, hi', Memory.wf_writeRange ho .., Memory.below_writeRange ho' hc _⟩, hs, he⟩

theorem State.Inv.clobberObuf (h : s.Inv) {start stop : Nat} (hc : stop ≤ s.par.obufSize) : (s.clobberObuf start stop).Inv := by
  obtain ⟨hp, hr, hw, hc', hb, hs, he⟩ :=
    h.writeObuf (Config.decSlack s.draws) (start := start) (count := stop - start) (by omega)
  exact ⟨hp, hr, hw, hc', hb, hs, Nat.le_succ_of_le he⟩

theorem State.Inv.done (h : s.Inv) {v : Nat} (hv : v < 2 ^ s.par.lenW) : (s.done v).Inv := by
  obtain ⟨hp, ⟨h0, h1, -⟩, -, hc, hb, -, he⟩ := h
  exact ⟨hp, ⟨h0, h1, hv, Nat.two_pow_pos _⟩, rfl, hc, hb, by simp [resultsConsistent], he⟩

theorem State.Inv.raiseFatal (h : s.Inv) (cause : FCause) : (s.raiseFatal cause).Inv := by
  obtain ⟨hp, ⟨h0, h1, -⟩, -, hc, hb, -, he⟩ := h
  exact ⟨hp, ⟨h0, h1, Nat.two_pow_pos _, Nat.two_pow_pos _⟩, rfl, hc, hb, by simp [resultsConsistent], he⟩

theorem State.Inv.raiseErrLength (h : s.Inv) : (s.raiseError .errLength 0 0#8).Inv := by
  obtain ⟨hp, ⟨h0, h1, -⟩, -, hc, hb, -, he⟩ := h
  exact ⟨hp, ⟨h0, h1, Nat.two_pow_pos _, Nat.two_pow_pos _⟩, rfl, hc, hb, by simp [resultsConsistent], he⟩

theorem State.Inv.raiseErrByte (h : s.Inv) {pos : Nat} (hpos : pos < 2 ^ s.par.lenW) (b : Byte) :
    (s.raiseError .errByte pos b).Inv := by
  obtain ⟨hp, ⟨h0, h1, -⟩, -, hc, hb, -, he⟩ := h
  exact ⟨hp, ⟨h0, h1, Nat.two_pow_pos _, hpos⟩, rfl, hc, hb, by simp [resultsConsistent], he⟩

theorem State.Inv.startCommand (h : s.Inv) {word : Nat} (hw : word < 2 ^ s.par.lenW) (window : Nat) :
    (s.startCommand word window).Inv := by
  obtain ⟨hp, ⟨h0, h1, -⟩, -, hc, hb, -, he⟩ := h
  exact ⟨hp, ⟨h0, h1, Nat.two_pow_pos _, Nat.two_pow_pos _⟩, by simp [phaseWordInRange, hw], hc, hb,
    by simp [resultsConsistent], he⟩

/-- The reset state meets the invariant whatever the block was doing: well-formed parameters are enough (10_state.md R38). -/
theorem resetEvent_inv (h : s.par.wf) : s.resetEvent.Inv := by
  have hc : cfgLegal s.par 0x13D#11 := makeCfg_standard ▸ cfgLegal_builtIn h .standard
  have h0 := Nat.two_pow_pos s.par.lenW
  exact ⟨h, ⟨h0, h0, h0, h0⟩, rfl, hc, by simp [buffersWf], by simp [resultsConsistent], le_refl _⟩

theorem State.Inv.answer (h : s.Inv) (v : Option Nat) : (s.answer v).Inv := h

theorem State.Inv.setPort (h : s.Inv) (rest : List PortEvent) : State.Inv { s with port := rest } := h

theorem State.Inv.busyStatusRead (h : s.Inv) : s.busyStatusRead.Inv := by
  obtain ⟨hp, hr, hw, hc, hb, hs, he⟩ := h
  exact ⟨hp, hr, hw, hc, hb, hs, Nat.le_succ_of_le he⟩

theorem State.Inv.writeCmd (h : s.Inv) (v window : Nat) : (s.writeCmd v window).Inv := by
  simp only [State.writeCmd]
  split
  · exact h.startCommand (lenBits_lt s v) _
  · exact h
  · exact h

theorem State.Inv.writeReg (h : s.Inv) (index v : Nat) : (s.writeReg index v).Inv := by
  simp only [State.writeReg]
  obtain ⟨hp, ⟨h0, h1, hres⟩, hrest⟩ := id h
  split
  · exact h.writeCmd v 0
  · exact ⟨hp, ⟨lenBits_lt s v, h1, hres⟩, hrest⟩
  · exact ⟨hp, ⟨h0, lenBits_lt s v, hres⟩, hrest⟩
  · exact h

theorem State.Inv.writeIbufByte (h : s.Inv) (i : Nat) (b : Byte) : (s.writeIbufByte i b).Inv := by
  simp only [State.writeIbufByte]
  split
  · obtain ⟨hp, hr, hw, hc, ⟨hi, hi', ho⟩, hs⟩ := h
    exact ⟨hp, hr, hw, hc, ⟨Memory.wf_write hi i b, Memory.below_write hi' ‹_› b, ho⟩, hs⟩
  · exact h

theorem State.Inv.writeObufByte (h : s.Inv) (j : Nat) (b : Byte) : (s.writeObufByte j b).Inv := by
  simp only [State.writeObufByte]
  split
  · exact h.writeObuf (fun _ => b) (start := j) (count := 1) (.inr ‹_›)
  · exact h

/-- A port event outside BUSY keeps the invariant. -/
theorem State.Inv.portEvent (h : s.Inv) (ev : PortEvent) : (s.portEvent ev).Inv := by
  cases ev with
  | command v window => exact (h.writeCmd v window).answer none
  | writeReg index v => exact (h.writeReg index v).answer none
  | writeIbuf i b => exact (h.writeIbufByte i b).answer none
  | writeObuf j b => exact (h.writeObufByte j b).answer none
  | readReg | readIbuf | readObuf => exact h.answer _
  | reset => exact resetEvent_inv h.1

/-! ### The invariant, command by command -/

theorem finishSize_inv (h : s.Inv) {r : Option Nat} (hr : ∀ v, r = some v → v < 2 ^ s.par.lenW) : (finishSize r s).Inv := by
  rcases finishSize_cases r s with ⟨-, e⟩ | ⟨v, hv, e⟩
  · rw [e]; exact h.raiseFatal _
  · rw [e]; exact h.done (hr v hv)

/-- A text that fits OBUF is written and its length fits RES. -/
theorem writeObuf_done_inv (h : s.Inv) (f : Nat → Byte) {n : Nat} (hn : n ≤ s.par.obufSize) :
    ((s.writeObuf f 0 n).done n).Inv :=
  (h.writeObuf f (by omega)).done (hn.trans_lt (Params.wf_obufSize_lt h.1))

theorem finishDec_inv (h : s.Inv) (ho : s.arg1 ≤ s.par.obufSize) (hn : decCount s ≤ s.arg1) : (finishDec s).Inv := by
  simp only [finishDec]
  split
  · exact h.done (Nat.two_pow_pos _)
  · exact writeObuf_done_inv (h.clobberObuf ho) _ (hn.trans ho)

/-- The position DEC reports lies in its text (43_decode.md R111). -/
theorem decInvalid_lt {pos : Nat} (h : decInvalid s = some pos) : pos < s.arg0 :=
  ((firstInvalid_eq_some _ _ _ _).mp h).1.trans_le (consumedLength_le _ _ _)

theorem consumeText_inv (h : s.Inv) (ho : s.arg1 ≤ s.par.obufSize) : (consumeText s).Inv := by
  have hclobber : (clobberOutput s).Inv := h.clobberObuf ho
  obtain ⟨-, ⟨harg0, -⟩, -⟩ := id h
  rcases consumeText_cases s with ⟨pos, hi, e⟩ | ⟨-, -, e⟩ | ⟨-, -, -, e⟩ | ⟨-, -, hn, e⟩ <;> rw [e]
  · exact hclobber.raiseErrByte ((decInvalid_lt hi).trans harg0) _
  · exact hclobber.raiseErrLength
  · exact hclobber.raiseFatal _
  · exact finishDec_inv h ho hn

theorem execEnc_inv {t : State} (h : s.Inv) (he : execEnc s = .next t) : t.Inv := by
  rcases execEnc_cases he with ⟨-, rfl⟩ | ⟨-, -, rfl⟩ | ⟨_, -, -, -, rfl⟩ | ⟨size, hr, hs, hc, rfl⟩
  · exact h.raiseFatal _
  · exact h.raiseFatal _
  · exact h.raiseFatal _
  · have ho := ((slicesInRange_iff s).mp hr).2
    exact writeObuf_done_inv h _ (textLength_of_encodedSize hs ▸ hc.trans ho)

theorem execPadd_inv {t : State} (h : s.Inv) (he : execPadd s = .next t) : t.Inv := by
  rcases execPadd_cases he with ⟨-, rfl⟩ | ⟨-, -, rfl⟩ | ⟨-, -, -, rfl⟩ | ⟨hr, -, hc, rfl⟩
  · exact h.raiseFatal _
  · exact h.done (Nat.two_pow_pos _)
  · exact h.raiseFatal _
  · exact writeObuf_done_inv h _ (hc.trans ((outputInRange_iff s).mp hr))

theorem execDec_inv {t : State} (h : s.Inv) (he : execDec s = .next t) : t.Inv := by
  rcases execDec_cases he with ⟨-, rfl⟩ | ⟨-, -, rfl⟩ | ⟨_, -, -, -, rfl⟩ | ⟨_, -, -, -, -, rfl⟩ | ⟨_, hr, -, -, -, rfl⟩
  · exact h.raiseFatal _
  · exact h.raiseFatal _
  · exact h.raiseFatal _
  · exact h.raiseErrLength
  · exact consumeText_inv h ((slicesInRange_iff s).mp hr).2

/-- Every command keeps the invariant. -/
theorem exec_inv {i : Instr} {t : State} (h : s.Inv) (he : exec i s = .next t) : t.Inv := by
  cases i with
  | ldcfg imm => cases he; exact (h.setCfg (cfgLegal_builtIn h.1 _)).done (Nat.two_pow_pos _)
  | clrpad => cases he; exact (h.setCfg (cfgLegal_makeCfg (by simp))).done (Nat.two_pow_pos _)
  | setpad b =>
    rcases execSetpad_cases he with ⟨-, rfl⟩ | ⟨hb, rfl⟩
    · exact h.raiseFatal _
    · exact (h.setCfg (cfgLegal_makeCfg (by rintro _ ⟨⟩; exact hb))).done (Nat.two_pow_pos _)
  | encsz => cases he; exact finishSize_inv h fun _ => encodedSize_lt
  | decsz => cases he; exact finishSize_inv h fun _ => decodedSize_lt
  | enc => exact execEnc_inv h he
  | padd => exact execPadd_inv h he
  | dec => exact execDec_inv h he

/-- The window of a running command runs down. -/
theorem State.Inv.windowTick (h : s.Inv) {w k : Nat} (hp : s.phase = .busy w (k + 1)) (rest : List PortEvent) :
    State.Inv { s with phase := .busy w k, port := rest } := by
  obtain ⟨hwf, hr, hw, hc, hb, ⟨h1, h2, h3⟩, he⟩ := h
  exact ⟨hwf, hr, by simpa [phaseWordInRange, hp] using hw, hc, hb, ⟨fun _ => h1 (by simp [hp]), h2, h3⟩, he⟩

end

/-- Settles O51, by what a step can do: each of its moves is an operation that keeps the invariant. -/
theorem stepKeepsInvariant : Obligations.StepKeepsInvariant := by
  unfold Obligations.StepKeepsInvariant
  intro s t h hs
  rcases step_cases hs with ⟨-, -, rfl⟩ | ⟨ev, rest, -, -, rfl⟩ | ⟨w, k, -, hrun⟩ | ⟨w, k, ev, rest, hp, -, hev⟩
  · exact h
  · exact (h.setPort rest).portEvent ev
  · rcases runCommand_cases hrun with ⟨i, -, he⟩ | ⟨-, -, rfl⟩
    · exact exec_inv h he
    · exact h.raiseFatal _
  · rcases busyEvent_cases hev with ⟨-, rfl⟩ | ⟨-, rfl⟩
    · exact (h.windowTick hp rest).busyStatusRead
    · exact resetEvent_inv h.1

/-- The default parameters meet the constraints on them (00_scope.md R7). -/
theorem defaultParams_wf : defaultParams.wf := by decide +kernel

/-- Settles O50: the state at reset is what the reset event gives, but for the model's own counters. -/
theorem resetMeetsInvariant : Obligations.ResetMeetsInvariant := by
  unfold Obligations.ResetMeetsInvariant
  obtain ⟨hp, hr, hw, hc, hb, hs, -⟩ := resetEvent_inv (s := State.reset) defaultParams_wf
  exact ⟨hp, hr, hw, hc, hb, hs, le_refl _⟩

end Sys2Proof.Machine
end

section
/-! SUPPORT. The statements about reset, the host port, STATUS and the parameters (10_state.md R13 to R38). -/

namespace Sys2Proof.Machine

/-! ### STATUS -/

/-- The fields of a STATUS word (10_state.md R24). -/
theorem extractLsb'_status (cause : BitVec 4) (code : BitVec 2) (fatal busy : BitVec 1) :
    let w := cause ++ (code ++ (fatal ++ busy))
    w.extractLsb' 0 1 = busy ∧ w.extractLsb' 1 1 = fatal ∧ w.extractLsb' 2 2 = code ∧ w.extractLsb' 4 4 = cause := by
  revert cause code fatal busy
  decide

/-- The fields of STATUS (10_state.md R21, R24). -/
theorem statusWord_fields (s : State) :
    (statusWord s).extractLsb' 0 1 = phaseBusy s.phase ∧ (statusWord s).extractLsb' 1 1 = phaseFatal s.phase ∧
      (statusWord s).extractLsb' 2 2 = codeBits s.code ∧ (statusWord s).extractLsb' 4 4 = phaseCause s.phase :=
  extractLsb'_status _ _ _ _

theorem phaseBusy_eq_one (p : Phase) : phaseBusy p = 1#1 ↔ ∃ w k, p = .busy w k := by
  cases p <;> simp [phaseBusy]

theorem phaseFatal_eq_one (p : Phase) : phaseFatal p = 1#1 ↔ ∃ c, p = .halted c := by
  cases p <;> simp [phaseFatal]

/-- FCAUSE is 0 until a fatal fault (R24). -/
theorem phaseCause_of_not_fatal {p : Phase} (h : phaseFatal p = 0#1) : phaseCause p = 0#4 := by
  cases p with
  | halted c => cases h
  | idle | busy => rfl

/-- The causes are numbered 1 to 6 (60_exceptions.md R131). -/
theorem causeBits_range (c : FCause) : 1#4 ≤ causeBits c ∧ causeBits c ≤ 6#4 := by
  cases c <;> decide

/-- STATUS in HALTED: the code is OK (R24). -/
theorem statusWord_halted {s : State} {c : FCause} (h : s.Inv) (hp : s.phase = .halted c) :
    statusWord s = causeBits c ++ (0#2 ++ (1#1 ++ 0#1)) := by
  obtain ⟨-, -, -, -, -, ⟨hcode, -⟩, -⟩ := h
  rw [statusWord, hp, (hcode (by simp [hp])).1]; rfl

theorem statusWord_idle {s : State} (hp : s.phase = .idle) : statusWord s = 0#4 ++ (codeBits s.code ++ (0#1 ++ 0#1)) := by
  rw [statusWord, hp]; rfl

/-- Settles O16: the fields are the parts STATUS is put together from; the invariant makes CODE 0 outside IDLE. -/
theorem statusFieldsOfPhase : Obligations.StatusFieldsOfPhase := by
  unfold Obligations.StatusFieldsOfPhase
  intro s
  obtain ⟨hbusy, hfatal, hcode, hcause⟩ := statusWord_fields s
  rw [hbusy, hfatal, hcode, hcause]
  refine ⟨phaseBusy_eq_one _, phaseFatal_eq_one _, rfl, fun c hp => by rw [hp]; rfl, fun h => ⟨phaseCause_of_not_fatal, ?_, ?_⟩⟩
  · intro hf
    obtain ⟨c, hp⟩ := (phaseFatal_eq_one _).mp hf
    obtain ⟨-, -, -, -, -, ⟨hok, -⟩, -⟩ := h
    rw [hp, (hok (by simp [hp])).1]
    exact ⟨rfl, rfl, causeBits_range c⟩
  · refine ⟨fun hp hc => ?_, fun hp hc => ?_, ?_, ?_, ?_, ?_, ?_, ?_⟩
    any_goals (intro hp; rw [statusWord_halted h hp]; rfl)
    all_goals rw [statusWord_idle hp, hc]; rfl

/-! ### Reset -/

/-- A reset that is due is the reset event, in any phase (70_reset_and_hazards.md R151, R152). -/
theorem step_reset {s : State} {rest : List PortEvent} (hq : s.port = .reset :: rest) (h : ∀ w, s.phase ≠ .busy w 0) :
    step s = .next (State.resetEvent { s with port := rest }) := by
  cases hp : s.phase with
  | idle => exact step_idle hp hq
  | halted c => exact step_halted hp hq
  | busy w k =>
    cases k with
    | zero => exact absurd hp (h w)
    | succ k => exact step_busy hp hq

/-- A buffer that lists nothing holds free values only (70_reset_and_hazards.md R153). -/
theorem ibufByte_resetEvent (s : State) (i : Nat) : ibufByte s.resetEvent i = Config.ibufFill s.resetEvent.epoch i := rfl

theorem obufByte_resetEvent (s : State) (j : Nat) : obufByte s.resetEvent j = Config.obufFill s.resetEvent.epoch j := rfl

theorem statusWord_resetEvent (s : State) : statusWord s.resetEvent = 0#8 := by
  rw [statusWord_idle rfl, State.resetEvent_code]; rfl

/-- Settles O10: the step is the reset event, whose fields are read off. -/
theorem resetEventGivesResetState : Obligations.ResetEventGivesResetState := by
  unfold Obligations.ResetEventGivesResetState
  intro s rest hq h
  exact ⟨_, step_reset hq h, rfl, statusWord_resetEvent _, rfl, rfl, rfl, rfl, rfl, rfl, rfl, rfl, Nat.lt_succ_self s.draws,
    ibufByte_resetEvent _, obufByte_resetEvent _⟩

/-- Settles O11: the registers of the reset state, read one by one. -/
theorem resetRegisterValues : Obligations.ResetRegisterValues := by
  unfold Obligations.ResetRegisterValues
  exact ⟨rfl, by decide⟩

/-! ### Registers -/

/-- A write to a read-only register or to an index above 7 is discarded (10_state.md R20). -/
theorem State.writeReg_discarded {s : State} {index : Nat} (h : index ≠ 0 ∧ index ≠ 3 ∧ index ≠ 4) (v : Nat) :
    s.writeReg index v = s := by
  simp only [State.writeReg]
  split <;> simp_all

/-- CMD and indices above 7 read 0 (R14, R20). -/
theorem readRegister_eq_zero {s : State} {index : Nat} (h : index = 0 ∨ 7 < index) : readRegister s index = 0 := by
  simp only [readRegister]
  split <;> omega

/-- Settles O14: outside BUSY the step is the port event; each access is then one case of `writeReg` or `readRegister`. -/
theorem registerAccessRules : Obligations.RegisterAccessRules := by
  unfold Obligations.RegisterAccessRules
  intro s index v rest hb
  refine ⟨fun hq hi => ?_, fun hq => ⟨fun hp => ?_, fun c hp => ?_⟩, fun hq => step_ready hb hq, fun hq => step_ready hb hq,
    fun hq => ⟨_, step_ready hb hq, readRegister_eq_zero, ?_⟩⟩
  · rw [step_ready hb hq, State.portEvent, State.writeReg_discarded hi]; rfl
  · rw [step_cmdWrite_idle (.inr ⟨rfl, rfl⟩) hp hq, Nat.le_zero.mp (commandWindow_le _ 0)]; rfl
  · exact step_cmdWrite_halted (.inr ⟨rfl, rfl⟩) hp hq
  · refine ⟨?_, ?_, ?_, ?_, ?_, ?_, ?_⟩ <;> (rintro rfl; rfl)

/-! ### Buffers -/

/-- IBUF after a host write in range (10_state.md R29). -/
theorem ibufByte_write (s : State) (i : Nat) (b : Byte) (j : Nat) :
    ibufByte { s with ibuf := Memory.write s.ibuf i b } j = if j = i then b else ibufByte s j := by
  simp only [ibufByte, Memory.read_write]
  split <;> rfl

/-- OBUF after a host write in range (R29). -/
theorem obufByte_write (s : State) (i : Nat) (b : Byte) (j : Nat) :
    obufByte { s with obuf := Memory.write s.obuf i b } j = if j = i then b else obufByte s j := by
  simp only [obufByte, Memory.read_write]
  split <;> rfl

/-- A host read in the numbers the port carries (R29). -/
theorem hostReadIbuf_toNat (s : State) (i : Nat) :
    (hostReadIbuf s i).toNat = if i < s.par.ibufSize then (ibufByte s i).toNat else 0 := by
  simp only [hostReadIbuf]; split <;> rfl

theorem hostReadObuf_toNat (s : State) (j : Nat) :
    (hostReadObuf s j).toNat = if j < s.par.obufSize then (obufByte s j).toNat else 0 := by
  simp only [hostReadObuf]; split <;> rfl

/-- Settles O15: outside BUSY the step is the port event; a write in range is one `Memory.write`. -/
theorem bufferAccessRules : Obligations.BufferAccessRules := by
  unfold Obligations.BufferAccessRules
  intro s i b rest hb
  refine ⟨fun hq => ⟨fun hi => ⟨_, ?_, ibufByte_write s i b⟩, fun hi => ?_⟩,
    fun hq => ⟨fun hi => ⟨_, ?_, obufByte_write s i b⟩, fun hi => ?_⟩, fun hq => ?_, fun hq => ?_⟩
  · rw [step_ready hb hq, State.portEvent, State.writeIbufByte, if_pos hi]; rfl
  · rw [step_ready hb hq, State.portEvent, State.writeIbufByte, if_neg (Nat.not_lt.mpr hi)]; rfl
  · rw [step_ready hb hq, State.portEvent, State.writeObufByte, if_pos hi]; rfl
  · rw [step_ready hb hq, State.portEvent, State.writeObufByte, if_neg (Nat.not_lt.mpr hi)]; rfl
  · rw [step_ready hb hq, State.portEvent, hostReadIbuf_toNat]; rfl
  · rw [step_ready hb hq, State.portEvent, hostReadObuf_toNat]; rfl

/-! ### Parameters and the port -/

/-- A CMD write, accepted or not, leaves the parameters and the events to come as they are. -/
theorem writeCmd_par_port (s : State) (v window : Nat) :
    (s.writeCmd v window).par = s.par ∧ (s.writeCmd v window).port = s.port := by
  simp only [State.writeCmd]
  split <;> exact ⟨rfl, rfl⟩

/-- A port event leaves the parameters and the events to come as they are (10_state.md R13). -/
theorem portEvent_par_port (s : State) (ev : PortEvent) : (s.portEvent ev).par = s.par ∧ (s.portEvent ev).port = s.port := by
  cases ev with
  | command v window => exact writeCmd_par_port s v window
  | writeReg index v =>
    simp only [State.portEvent, State.writeReg]
    split
    · exact writeCmd_par_port s v 0
    · exact ⟨rfl, rfl⟩
    · exact ⟨rfl, rfl⟩
    · exact ⟨rfl, rfl⟩
  | writeIbuf i b => simp only [State.portEvent, State.writeIbufByte]; split <;> exact ⟨rfl, rfl⟩
  | writeObuf j b => simp only [State.portEvent, State.writeObufByte]; split <;> exact ⟨rfl, rfl⟩
  | readReg | readIbuf | readObuf | reset => exact ⟨rfl, rfl⟩

/-- Settles O18, by what a step can do. -/
theorem parametersNeverChange : Obligations.ParametersNeverChange := by
  unfold Obligations.ParametersNeverChange
  intro s t hs
  rcases step_cases hs with ⟨-, -, rfl⟩ | ⟨ev, rest, -, hq, rfl⟩ | ⟨w, k, -, hrun⟩ | ⟨w, k, ev, rest, -, hq, hev⟩
  · exact ⟨rfl, .inl rfl⟩
  · obtain ⟨hpar, hport⟩ := portEvent_par_port { s with port := rest } ev
    exact ⟨hpar, .inr (by rw [hport, hq]; rfl)⟩
  · rcases runCommand_cases hrun with ⟨i, -, he⟩ | ⟨-, -, rfl⟩
    · obtain ⟨hpar, -, -, -, -, hport, -⟩ := exec_keepsInputs he
      exact ⟨hpar, .inl hport⟩
    · exact ⟨rfl, .inl rfl⟩
  · rcases busyEvent_cases hev with ⟨-, rfl⟩ | ⟨-, rfl⟩
    · exact ⟨rfl, .inr (by rw [hq]; rfl)⟩
    · exact ⟨rfl, .inr (by rw [hq]; rfl)⟩

end Sys2Proof.Machine
end

section
/-! SUPPORT. A command on a block with another OBUF: it ends in the same state but for OBUF (10_state.md R28). -/

namespace Sys2Proof.Machine

/-- The block with another OBUF. -/
def State.withObuf (s : State) (m : Memory) : State := { s with obuf := m }

section
variable (s : State) (m : Memory)

/-! What a command reads is the same with another OBUF. -/

@[simp] theorem State.withObuf_arg0 : (s.withObuf m).arg0 = s.arg0 := rfl
@[simp] theorem State.withObuf_arg1 : (s.withObuf m).arg1 = s.arg1 := rfl
@[simp] theorem State.withObuf_cfg : (s.withObuf m).cfg = s.cfg := rfl
@[simp] theorem ibufByte_withObuf : ibufByte (s.withObuf m) = ibufByte s := rfl
@[simp] theorem stateInv_withObuf : stateInv (s.withObuf m) = stateInv s := rfl
@[simp] theorem slicesInRange_withObuf : slicesInRange (s.withObuf m) = slicesInRange s := rfl
@[simp] theorem outputInRange_withObuf : outputInRange (s.withObuf m) = outputInRange s := rfl
@[simp] theorem stateEncodedSize_withObuf : stateEncodedSize (s.withObuf m) = stateEncodedSize s := rfl
@[simp] theorem stateDecodedSize_withObuf : stateDecodedSize (s.withObuf m) = stateDecodedSize s := rfl
@[simp] theorem decInvalid_withObuf : decInvalid (s.withObuf m) = decInvalid s := rfl
@[simp] theorem decTailSymbols_withObuf : decTailSymbols (s.withObuf m) = decTailSymbols s := rfl
@[simp] theorem decCount_withObuf : decCount (s.withObuf m) = decCount s := rfl

/-! Each end of a command is the same but for OBUF. -/

theorem done_withObuf (v : Nat) : (s.withObuf m).done v = (s.done v).withObuf m := rfl
theorem raiseFatal_withObuf (cause : FCause) : (s.withObuf m).raiseFatal cause = (s.raiseFatal cause).withObuf m := rfl
theorem raiseError_withObuf (c : Code) (pos : Nat) (b : Byte) :
    (s.withObuf m).raiseError c pos b = (s.raiseError c pos b).withObuf m := rfl

theorem finishSize_withObuf (r : Option Nat) : finishSize r (s.withObuf m) = (finishSize r s).withObuf m := by
  cases r <;> rfl

theorem clobberOutput_withObuf : ∃ m', clobberOutput (s.withObuf m) = (clobberOutput s).withObuf m' := ⟨_, rfl⟩
theorem finishEnc_withObuf : ∃ m', finishEnc (s.withObuf m) = (finishEnc s).withObuf m' := ⟨_, rfl⟩
theorem finishPadd_withObuf : ∃ m', finishPadd (s.withObuf m) = (finishPadd s).withObuf m' := ⟨_, rfl⟩

theorem finishDec_withObuf : ∃ m', finishDec (s.withObuf m) = (finishDec s).withObuf m' := by
  by_cases h : s.arg0 = 0
  · rw [finishDec, finishDec, if_pos h, if_pos (by exact h)]; exact ⟨_, rfl⟩
  · rw [finishDec, finishDec, if_neg h, if_neg (by exact h)]; exact ⟨_, rfl⟩

theorem consumeText_withObuf : ∃ m', consumeText (s.withObuf m) = (consumeText s).withObuf m' := by
  obtain ⟨mc, hc⟩ := clobberOutput_withObuf s m
  simp only [consumeText, decInvalid_withObuf, decTailSymbols_withObuf, decCount_withObuf, State.withObuf_arg1,
    ibufByte_withObuf, hc]
  split
  · exact ⟨mc, rfl⟩
  · split
    · exact ⟨mc, rfl⟩
    · split
      · exact ⟨mc, rfl⟩
      · exact finishDec_withObuf s m

end

section
variable {s t : State} (m : Memory)

theorem execEnc_withObuf (h : execEnc s = .next t) : ∃ m', execEnc (s.withObuf m) = .next (t.withObuf m') := by
  rcases execEnc_cases h with ⟨hr, rfl⟩ | ⟨hr, hs, rfl⟩ | ⟨size, hr, hs, hc, rfl⟩ | ⟨size, hr, hs, hc, rfl⟩
  · exact ⟨m, by simp [execEnc, hr, raiseFatal_withObuf]⟩
  · exact ⟨m, by simp [execEnc, hr, hs, raiseFatal_withObuf]⟩
  · exact ⟨m, by simp [execEnc, hr, hs, hc, raiseFatal_withObuf]⟩
  · obtain ⟨m', e⟩ := finishEnc_withObuf s m
    exact ⟨m', e ▸ execEnc_success (s := s.withObuf m) hr hs hc⟩

theorem execPadd_withObuf (h : execPadd s = .next t) : ∃ m', execPadd (s.withObuf m) = .next (t.withObuf m') := by
  rcases execPadd_cases h with ⟨hr, rfl⟩ | ⟨hr, hp, rfl⟩ | ⟨hr, hp, hc, rfl⟩ | ⟨hr, hp, hc, rfl⟩
  · exact ⟨m, by simp [execPadd, hr, raiseFatal_withObuf]⟩
  · exact ⟨m, by simp [execPadd, hr, hp, done_withObuf]⟩
  · exact ⟨m, by simp [execPadd, hr, hp, hc, raiseFatal_withObuf]⟩
  · obtain ⟨m', e⟩ := finishPadd_withObuf s m
    exact ⟨m', by simp [execPadd, hr, hp, Nat.not_lt.mpr hc, e]⟩

theorem execDec_withObuf (h : execDec s = .next t) : ∃ m', execDec (s.withObuf m) = .next (t.withObuf m') := by
  rcases execDec_cases h with ⟨hr, rfl⟩ | ⟨hr, hs, rfl⟩ | ⟨size, hr, hs, hc, rfl⟩ | ⟨size, hr, hs, hc, hb, rfl⟩ |
    ⟨size, hr, hs, hc, hb, rfl⟩
  · exact ⟨m, by simp [execDec, hr, raiseFatal_withObuf]⟩
  · exact ⟨m, by simp [execDec, hr, hs, raiseFatal_withObuf]⟩
  · exact ⟨m, by simp [execDec, hr, hs, hc, raiseFatal_withObuf]⟩
  · exact ⟨m, by simp [execDec, hr, hs, Nat.not_lt.mpr hc, hb, raiseError_withObuf]⟩
  · obtain ⟨m', e⟩ := consumeText_withObuf s m
    exact ⟨m', e ▸ execDec_consumes (s := s.withObuf m) hr hs hc hb⟩

/-- Every command, with another OBUF, ends in the same state but for OBUF. -/
theorem exec_withObuf {i : Instr} (h : exec i s = .next t) : ∃ m', exec i (s.withObuf m) = .next (t.withObuf m') := by
  cases i with
  | ldcfg imm => cases h; exact ⟨m, rfl⟩
  | clrpad => cases h; exact ⟨m, rfl⟩
  | setpad b =>
    rcases execSetpad_cases h with ⟨hb, rfl⟩ | ⟨hb, rfl⟩
    · exact ⟨m, by simp [exec, execSetpad, hb, raiseFatal_withObuf]⟩
    · exact ⟨m, by simp only [exec, execSetpad, stateInv_withObuf, hb]; rfl⟩
  | encsz => cases h; exact ⟨m, congrArg _ (finishSize_withObuf s m _)⟩
  | decsz => cases h; exact ⟨m, congrArg _ (finishSize_withObuf s m _)⟩
  | enc => exact execEnc_withObuf m h
  | padd => exact execPadd_withObuf m h
  | dec => exact execDec_withObuf m h

end

/-! ### The bytes below RES -/

/-- The text ENC leaves below RES is `encByte`, whatever OBUF held. -/
theorem execEnc_obuf {s t : State} (h : execEnc s = .next t) {j : Nat} (hj : j < t.res) : obufByte t j = encByte s j := by
  rcases execEnc_cases h with ⟨-, rfl⟩ | ⟨-, -, rfl⟩ | ⟨_, -, -, -, rfl⟩ | ⟨_, -, -, -, rfl⟩
  · cases hj
  · cases hj
  · cases hj
  · exact (obufByte_finishEnc s j).trans (if_pos hj)

/-- The bytes PADD leaves below RES are pad bytes. -/
theorem execPadd_obuf {s t : State} (h : execPadd s = .next t) {j : Nat} (hj : j < t.res) : obufByte t j = cfgPad s.cfg := by
  rcases execPadd_cases h with ⟨-, rfl⟩ | ⟨-, -, rfl⟩ | ⟨-, -, -, rfl⟩ | ⟨-, -, -, rfl⟩
  · cases hj
  · cases hj
  · cases hj
  · exact (obufByte_finishPadd s j).trans (if_pos hj)

/-- Settles O54: the next state by `exec_withObuf`; the bytes below RES are then functions of what the two runs share. -/
theorem resultsIgnoreObuf : Obligations.ResultsIgnoreObuf := by
  unfold Obligations.ResultsIgnoreObuf
  intro i s t m h
  obtain ⟨m', h'⟩ := exec_withObuf m h
  refine ⟨m', h', ?_⟩
  rintro (rfl | rfl | rfl) j hj
  · exact (execEnc_obuf h' hj).trans (execEnc_obuf h hj).symm
  · exact (execPadd_obuf h' hj).trans (execPadd_obuf h hj).symm
  · exact (execDec_congr (s := s) (u := s.withObuf m) ⟨rfl, rfl, rfl, rfl, rfl, rfl⟩ h h').2 j hj

end Sys2Proof.Machine
end

section
/-! SUPPORT. Where a command can write OBUF: below RES for ENC and PADD, below ARG1 for DEC, nowhere for the others
(20_memory.md R49, 42_encode.md R101, R103, 43_decode.md R125). -/

namespace Sys2Proof.Machine

section
variable {s t : State}

/-- A frame from one index on is a frame from every later index on. -/
theorem obufSameFrom_mono {a b : Nat} (hab : a ≤ b) (h : obufSameFrom s t a) : obufSameFrom s t b :=
  fun j hj => h j (hab.trans hj)

/-- The size commands leave OBUF as it was (41_size.md R81, R83). -/
theorem obufByte_finishSize (r : Option Nat) (s : State) : obufByte (finishSize r s) = obufByte s := by
  rcases finishSize_cases r s with ⟨-, e⟩ | ⟨v, -, e⟩
  · rw [e, obufByte_raiseFatal]
  · rw [e, obufByte_done]

/-- SETPAD leaves OBUF as it was, whether it halts or not (40_config.md R73, R74). -/
theorem execSetpad_keepsObuf {b : Byte} (h : execSetpad b s = .next t) : obufByte t = obufByte s := by
  rcases execSetpad_cases h with ⟨-, rfl⟩ | ⟨-, rfl⟩
  · exact obufByte_raiseFatal s _
  · rw [obufByte_done, obufByte_setCfg]

/-- ENC writes OBUF below RES only, and RES is at most ARG1 (42_encode.md R101, R105). -/
theorem execEnc_confined (h : execEnc s = .next t) : t.res ≤ s.arg1 ∧ obufSameFrom s t t.res := by
  rcases execEnc_cases h with ⟨-, rfl⟩ | ⟨-, -, rfl⟩ | ⟨_, -, -, -, rfl⟩ | ⟨size, -, hs, hc, rfl⟩
  · exact ⟨Nat.zero_le _, fun _ _ => rfl⟩
  · exact ⟨Nat.zero_le _, fun _ _ => rfl⟩
  · exact ⟨Nat.zero_le _, fun _ _ => rfl⟩
  · have hres : (finishEnc s).res = size := textLength_of_encodedSize hs
    exact ⟨hres.trans_le hc, fun j hj => (obufByte_finishEnc s j).trans (if_neg (Nat.not_lt.mpr hj))⟩

/-- PADD writes OBUF below RES only, and RES is at most ARG1 (42_encode.md R103). -/
theorem execPadd_confined (h : execPadd s = .next t) : t.res ≤ s.arg1 ∧ obufSameFrom s t t.res := by
  rcases execPadd_cases h with ⟨-, rfl⟩ | ⟨-, -, rfl⟩ | ⟨-, -, -, rfl⟩ | ⟨-, -, hc, rfl⟩
  · exact ⟨Nat.zero_le _, fun _ _ => rfl⟩
  · exact ⟨Nat.zero_le _, fun _ _ => rfl⟩
  · exact ⟨Nat.zero_le _, fun _ _ => rfl⟩
  · exact ⟨hc, fun j hj => (obufByte_finishPadd s j).trans (if_neg (Nat.not_lt.mpr hj))⟩

/-- An error met while the text is consumed touches OBUF below ARG1 only (43_decode.md R125 (c)). -/
theorem clobberOutput_confined (s : State) : obufSameFrom s (clobberOutput s) s.arg1 := fun j hj =>
  (obufByte_clobberObuf s 0 s.arg1 j).trans (if_neg fun h => Nat.not_lt.mpr hj h.2)

/-- A successful DEC writes OBUF below ARG1 only, where its bytes fit (43_decode.md R125 (a)). -/
theorem finishDec_confined (hn : decCount s ≤ s.arg1) : obufSameFrom s (finishDec s) s.arg1 := by
  intro j hj
  by_cases h0 : s.arg0 = 0
  · rw [finishDec, if_pos h0, obufByte_done]
  · rw [obufByte_finishDec h0, if_neg (Nat.not_lt.mpr (hn.trans hj)), if_neg (Nat.not_lt.mpr hj)]

theorem consumeText_confined (s : State) : obufSameFrom s (consumeText s) s.arg1 := by
  rcases consumeText_cases s with ⟨pos, -, e⟩ | ⟨-, -, e⟩ | ⟨-, -, -, e⟩ | ⟨-, -, hn, e⟩ <;> rw [e]
  · exact clobberOutput_confined s
  · exact clobberOutput_confined s
  · exact clobberOutput_confined s
  · exact finishDec_confined hn

/-- DEC writes OBUF below ARG1 only (R125). -/
theorem execDec_confined (h : execDec s = .next t) : obufSameFrom s t s.arg1 := by
  rcases execDec_cases h with ⟨-, rfl⟩ | ⟨-, -, rfl⟩ | ⟨_, -, -, -, rfl⟩ | ⟨_, -, -, -, -, rfl⟩ | ⟨_, -, -, -, -, rfl⟩
  · exact fun _ _ => rfl
  · exact fun _ _ => rfl
  · exact fun _ _ => rfl
  · exact fun _ _ => rfl
  · exact consumeText_confined s

/-- No command writes OBUF at an index from ARG1 on (20_memory.md R49). -/
theorem exec_confined {i : Instr} (h : exec i s = .next t) : obufSameFrom s t s.arg1 := by
  cases i with
  | ldcfg imm => cases h; exact fun _ _ => rfl
  | clrpad => cases h; exact fun _ _ => rfl
  | setpad b => exact fun j _ => congrFun (execSetpad_keepsObuf h) j
  | encsz => cases h; exact fun j _ => congrFun (obufByte_finishSize _ s) j
  | decsz => cases h; exact fun j _ => congrFun (obufByte_finishSize _ s) j
  | enc =>
    obtain ⟨hle, hframe⟩ := execEnc_confined h
    exact obufSameFrom_mono hle hframe
  | padd =>
    obtain ⟨hle, hframe⟩ := execPadd_confined h
    exact obufSameFrom_mono hle hframe
  | dec => exact execDec_confined h

end

/-- Settles O52: the inputs by `exec_keepsInputs`, OBUF by `exec_confined`. -/
theorem writesAreConfined : Obligations.WritesAreConfined := by
  unfold Obligations.WritesAreConfined
  intro i s t h
  obtain ⟨-, harg0, harg1, hibuf, -⟩ := exec_keepsInputs h
  exact ⟨hibuf, harg0, harg1, exec_confined h⟩

end Sys2Proof.Machine
end

section
/-! SUPPORT. The command word: its fields, what each part of the decoder accepts, and the statements about the decoder, the encoder
and the opcode table (30_encoding.md R57 to R66). -/

namespace Sys2Proof

/-! ### The fields of a word -/

section
variable (op : BitVec 4) (z : BitVec 3) (p : BitVec 1) (imm : Byte)

/-- The fields of a word in the format of R57. -/
theorem wordOp_append : wordOp (op ++ (z ++ (p ++ imm))) = op := BitVec.extractLsb'_append_eq_left

theorem wordZ_append : wordZ (op ++ (z ++ (p ++ imm))) = z :=
  (BitVec.extractLsb'_append_eq_of_add_le (by decide)).trans BitVec.extractLsb'_append_eq_left

theorem wordP_append : wordP (op ++ (z ++ (p ++ imm))) = p :=
  (BitVec.extractLsb'_append_eq_of_add_le (by decide)).trans <|
    (BitVec.extractLsb'_append_eq_of_add_le (by decide)).trans BitVec.extractLsb'_append_eq_left

theorem wordImm_append : wordImm (op ++ (z ++ (p ++ imm))) = imm :=
  (BitVec.extractLsb'_append_eq_of_add_le (by decide)).trans <|
    (BitVec.extractLsb'_append_eq_of_add_le (by decide)).trans BitVec.extractLsb'_append_eq_right

@[simp] theorem wordOp_makeWord : wordOp (makeWord op p imm) = op := wordOp_append op 0#3 p imm
@[simp] theorem wordZ_makeWord : wordZ (makeWord op p imm) = 0#3 := wordZ_append op 0#3 p imm
@[simp] theorem wordP_makeWord : wordP (makeWord op p imm) = p := wordP_append op 0#3 p imm
@[simp] theorem wordImm_makeWord : wordImm (makeWord op p imm) = imm := wordImm_append op 0#3 p imm

end

/-- A word is its four fields (R57). -/
theorem word_append (w : CmdWord) : wordOp w ++ (wordZ w ++ (wordP w ++ wordImm w)) = w := by
  rw [wordOp, wordZ, wordP, wordImm, BitVec.extractLsb'_append_extractLsb'_eq_extractLsb' (by decide),
    BitVec.extractLsb'_append_extractLsb'_eq_extractLsb' (by decide),
    BitVec.extractLsb'_append_extractLsb'_eq_extractLsb' (by decide)]
  exact BitVec.extractLsb'_eq_self

/-- Two words are equal exactly where their fields are. -/
theorem word_ext_iff {w x : CmdWord} :
    w = x ↔ wordOp w = wordOp x ∧ wordZ w = wordZ x ∧ wordP w = wordP x ∧ wordImm w = wordImm x := by
  constructor
  · rintro rfl
    exact ⟨rfl, rfl, rfl, rfl⟩
  · rintro ⟨hop, hz, hp, himm⟩
    rw [← word_append w, ← word_append x, hop, hz, hp, himm]

/-- A word with Z = 0 is made of its other fields. -/
theorem makeWord_fields {w : CmdWord} (hz : wordZ w = 0#3) : makeWord (wordOp w) (wordP w) (wordImm w) = w :=
  word_ext_iff.mpr ⟨by simp, by simp [hz], by simp, by simp⟩

/-! ### What each part of the decoder accepts -/

theorem decodeBare_eq_ok {i j : Instr} {w : CmdWord} :
    decodeBare i w = .ok j ↔ wordZ w = 0#3 ∧ wordP w = 0#1 ∧ wordImm w = 0#8 ∧ i = j := by
  simp only [decodeBare]
  split_ifs <;> simp_all

theorem decodeLdcfg_eq_ok {j : Instr} {w : CmdWord} :
    decodeLdcfg w = .ok j ↔
      wordZ w = 0#3 ∧ wordP w = 0#1 ∧ (wordImm w).extractLsb' 2 6 = 0#6 ∧ Instr.ldcfg (wordImm w) = j := by
  simp only [decodeLdcfg]
  split_ifs <;> simp_all

theorem decodePad_eq_ok {j : Instr} {w : CmdWord} :
    decodePad w = .ok j ↔
      wordZ w = 0#3 ∧ (wordP w = 1#1 ∧ Instr.setpad (wordImm w) = j ∨ wordP w = 0#1 ∧ wordImm w = 0#8 ∧ .clrpad = j) := by
  have hbit : ∀ p : BitVec 1, p = 0#1 ↔ p ≠ 1#1 := by decide
  simp only [decodePad, hbit]
  split_ifs <;> simp_all

/-! ### Round trips -/

/-- The decoder on the word of any instruction, well-formed or not (R57 to R66). -/
theorem decodeWord_encode (i : Instr) : decodeWord (encode i) = if i.wellFormed then .ok i else .error .immediate := by
  cases i with
  | ldcfg imm => simp [encode, decodeWord, decodeLdcfg, Instr.wellFormed]
  | clrpad => simp [encode, decodeWord, decodePad, Instr.wellFormed]
  | setpad b => simp [encode, decodeWord, decodePad, Instr.wellFormed]
  | encsz | decsz | enc | padd | dec => simp [encode, decodeWord, decodeBare, Instr.wellFormed]

/-- A word of one kind, with the fields the decoder has checked. -/
theorem makeWord_eq {w : CmdWord} {op : BitVec 4} {p : BitVec 1} {imm : Byte} (hop : (wordOp w).toNat = op.toNat)
    (hz : wordZ w = 0#3) (hp : wordP w = p) (himm : wordImm w = imm) : makeWord op p imm = w := by
  rw [← hp, ← himm, ← BitVec.eq_of_toNat_eq hop, makeWord_fields hz]

/-- A word that decodes is the word of what it decodes to (R62). -/
theorem encode_of_decodeWord {w : CmdWord} {i : Instr} (h : decodeWord w = .ok i) : encode i = w := by
  simp only [decodeWord] at h
  split at h <;> rename_i hop
  · obtain ⟨hz, hp, -, rfl⟩ := decodeLdcfg_eq_ok.mp h
    exact makeWord_eq hop hz hp rfl
  · obtain ⟨hz, ⟨hp, rfl⟩ | ⟨hp, himm, rfl⟩⟩ := decodePad_eq_ok.mp h
    · exact makeWord_eq hop hz hp rfl
    · exact makeWord_eq hop hz hp himm
  iterate 5
    obtain ⟨hz, hp, himm, rfl⟩ := decodeBare_eq_ok.mp h
    exact makeWord_eq hop hz hp himm
  · cases h

/-- An instruction whose word decodes is the well-formed instruction it decodes to. -/
theorem eq_of_decodeWord_encode {i j : Instr} (h : decodeWord (encode j) = .ok i) : j = i ∧ j.wellFormed = true := by
  rw [decodeWord_encode] at h
  split at h
  · exact ⟨Except.ok.inj h, ‹_›⟩
  · cases h

/-! ### The value a CMD write carries -/

theorem decodePort_toNat (w : CmdWord) : decodePort w.toNat = decodeWord w := by
  rw [decodePort, if_pos w.isLt, BitVec.ofNat_toNat, BitVec.setWidth_eq]

/-- The word of a well-formed instruction decodes to it, read from the port. -/
theorem decodePort_encode {i : Instr} (h : i.wellFormed = true) : decodePort (encode i).toNat = .ok i := by
  rw [decodePort_toNat, decodeWord_encode, if_pos h]

theorem decodePort_eq_ok {v : Nat} {i : Instr} : decodePort v = .ok i ↔ ∃ w : CmdWord, w.toNat = v ∧ decodeWord w = .ok i := by
  constructor
  · intro h
    simp only [decodePort] at h
    split at h
    · exact ⟨BitVec.ofNat 16 v, Nat.mod_eq_of_lt ‹_›, h⟩
    · cases h
  · rintro ⟨w, rfl, h⟩
    rw [decodePort_toNat, h]

/-- Settles O1: the decoder evaluated on the word of each instruction. -/
theorem decodeOfEncode : Obligations.DecodeOfEncode := by
  unfold Obligations.DecodeOfEncode
  exact fun i h => decodePort_encode h

/-- Settles O2: the word is rebuilt from its fields, and another instruction with that word would decode to itself. -/
theorem encodeOfDecode : Obligations.EncodeOfDecode := by
  unfold Obligations.EncodeOfDecode
  intro v i h
  obtain ⟨w, rfl, hw⟩ := decodePort_eq_ok.mp h
  obtain rfl := encode_of_decodeWord hw
  refine ⟨(eq_of_decodeWord_encode hw).2, rfl, fun j hj => ?_⟩
  rw [← BitVec.eq_of_toNat_eq hj] at hw
  exact (eq_of_decodeWord_encode hw).1

/-! ### Illegal words -/

/-- The words of the eight commands by their fields (R62 to R65). -/
def legalFields (w : CmdWord) : Prop :=
  wordZ w = 0#3 ∧
    (wordOp w = 1#4 ∧ wordP w = 0#1 ∧ (wordImm w).extractLsb' 2 6 = 0#6 ∨
      wordOp w = 2#4 ∧ (wordP w = 0#1 ∧ wordImm w = 0#8 ∨ wordP w = 1#1) ∨
      (3#4 ≤ wordOp w ∧ wordOp w ≤ 7#4) ∧ wordP w = 0#1 ∧ wordImm w = 0#8)

/-- The decoder accepts exactly the legal words. -/
theorem decodeWord_ok_iff (w : CmdWord) : (∃ i, decodeWord w = .ok i) ↔ legalFields w := by
  simp only [decodeWord, legalFields]
  split
  · simp only [decodeLdcfg_eq_ok, exists_and_left, exists_eq', and_true]
    bv_omega
  · simp only [decodePad_eq_ok, exists_and_left, exists_or, exists_eq', and_true]
    bv_omega
  iterate 5
    simp only [decodeBare_eq_ok, exists_and_left, exists_eq', and_true]
    bv_omega
  · simp only [imp_false, reduceCtorEq, exists_false, false_iff] at *
    bv_omega

/-- The mask of a row: OP, Z and P are fixed, and of IMM the bits of `m` (R62). -/
def maskWord (m : Byte) : CmdWord := BitVec.allOnes 4 ++ (BitVec.allOnes 3 ++ (BitVec.allOnes 1 ++ m))

/-- The fields of a word under a row's mask. -/
theorem fields_and_maskWord (w : CmdWord) (m : Byte) :
    wordOp (w &&& maskWord m) = wordOp w ∧ wordZ (w &&& maskWord m) = wordZ w ∧
      wordP (w &&& maskWord m) = wordP w ∧ wordImm (w &&& maskWord m) = wordImm w &&& m := by
  refine ⟨?_, ?_, ?_, ?_⟩ <;> refine BitVec.extractLsb'_and.trans ?_
  · exact (congrArg _ (wordOp_append ..)).trans BitVec.and_allOnes
  · exact (congrArg _ (wordZ_append ..)).trans BitVec.and_allOnes
  · exact (congrArg _ (wordP_append ..)).trans BitVec.and_allOnes
  · exact congrArg _ (wordImm_append ..)

/-- The opcode table by fields. -/
theorem opcodeTable_fields :
    opcodeTable =
      [⟨"LDCFG", makeWord 1#4 0#1 0#8, maskWord 0xFC#8⟩,
       ⟨"CLRPAD", makeWord 2#4 0#1 0#8, maskWord (BitVec.allOnes 8)⟩,
       ⟨"SETPAD", makeWord 2#4 1#1 0#8, maskWord 0#8⟩,
       ⟨"ENCSZ", makeWord 3#4 0#1 0#8, maskWord (BitVec.allOnes 8)⟩,
       ⟨"DECSZ", makeWord 4#4 0#1 0#8, maskWord (BitVec.allOnes 8)⟩,
       ⟨"ENC", makeWord 5#4 0#1 0#8, maskWord (BitVec.allOnes 8)⟩,
       ⟨"PADD", makeWord 6#4 0#1 0#8, maskWord (BitVec.allOnes 8)⟩,
       ⟨"DEC", makeWord 7#4 0#1 0#8, maskWord (BitVec.allOnes 8)⟩] := rfl

/-- What a row of the table accepts, field by field. -/
theorem accepts_fields (name : String) (op : BitVec 4) (p : BitVec 1) (imm m : Byte) (w : CmdWord) :
    OpcodeRow.accepts ⟨name, makeWord op p imm, maskWord m⟩ w = true ↔
      wordZ w = 0#3 ∧ wordOp w = op ∧ wordP w = p ∧ wordImm w &&& m = imm := by
  obtain ⟨hop, hz, hp, himm⟩ := fields_and_maskWord w m
  rw [OpcodeRow.accepts, beq_iff_eq, word_ext_iff, hop, hz, hp, himm, wordOp_makeWord, wordZ_makeWord, wordP_makeWord,
    wordImm_makeWord, and_left_comm]

/-- IMM under LDCFG's mask is IMM[7:2]. -/
theorem and_ldcfgMask : ∀ imm : Byte, imm &&& 0xFC#8 = 0#8 ↔ imm.extractLsb' 2 6 = 0#6 := by decide

/-- The rows of the table accept exactly the legal words. -/
theorem table_accepts_iff (w : CmdWord) : (∃ r ∈ opcodeTable, r.accepts w = true) ↔ legalFields w := by
  have hbare : ∀ op : BitVec 4, 3#4 ≤ op ∧ op ≤ 7#4 ↔ op = 3#4 ∨ op = 4#4 ∨ op = 5#4 ∨ op = 6#4 ∨ op = 7#4 := by decide
  simp only [opcodeTable_fields, List.mem_cons, List.not_mem_nil, or_false, exists_eq_or_imp, exists_eq_left,
    accepts_fields, and_ldcfgMask, BitVec.and_allOnes, BitVec.and_zero, and_true]
  simp only [legalFields, hbare, and_or_left, or_and_right, or_assoc]

/-- The decoder accepts a word or gives a reason, never both. -/
theorem decodeWord_error_iff (w : CmdWord) : (∃ e, decodeWord w = .error e) ↔ ¬ legalFields w := by
  rw [← decodeWord_ok_iff]
  cases decodeWord w <;> simp

theorem decodePort_error_iff (v : Nat) :
    (∃ e, decodePort v = .error e) ↔ 2 ^ 16 ≤ v ∨ ∃ e, decodeWord (BitVec.ofNat 16 v) = .error e := by
  simp only [decodePort]
  split <;> rename_i hv
  · exact (or_iff_right (Nat.not_le.mpr hv)).symm
  · exact iff_of_true ⟨_, rfl⟩ (.inl (Nat.le_of_not_lt hv))

/-- Settles O3: the decoder and the table's rows accept the same words, those with legal fields; R66's list is their complement. -/
theorem illegalWordsMatchNoRow : Obligations.IllegalWordsMatchNoRow := by
  unfold Obligations.IllegalWordsMatchNoRow
  refine ⟨fun v => ?_, fun w => ?_⟩
  · rw [decodePort_error_iff, decodeWord_error_iff, ← table_accepts_iff]
    simp only [not_exists, not_and, Bool.not_eq_true]
  · rw [decodeWord_error_iff, legalFields]
    bv_omega

/-- Settles O4: the decoder evaluated on eight words. -/
theorem writtenOutWordsDecode : Obligations.WrittenOutWordsDecode := by
  unfold Obligations.WrittenOutWordsDecode
  exact ⟨rfl, rfl, rfl, rfl, rfl, rfl, rfl, rfl⟩

end Sys2Proof
end

section
/-! SUPPORT. What the pseudo-instructions of 30_encoding.md R69 give from IDLE, each under the configuration it finds; the default ones
are the same after an LDCFG of the Standard configuration. -/

namespace Sys2Proof.Machine

/-- IBUF_SIZE is a LEN_W-bit value (00_scope.md R7). -/
theorem Params.wf_ibufSize_lt {p : Params} (h : p.wf) : p.ibufSize < 2 ^ p.lenW := by
  obtain ⟨-, ⟨-, hle⟩, -⟩ := h
  have := Nat.two_pow_pos p.lenW
  omega

theorem sameOperands_trans {s t u : State} (h : sameOperands s t) (h' : sameOperands t u) : sameOperands s u := by
  obtain ⟨hpar, hcfg, harg0, harg1, hibuf, hepoch⟩ := h
  obtain ⟨hpar', hcfg', harg0', harg1', hibuf', hepoch'⟩ := h'
  exact ⟨hpar'.trans hpar, hcfg'.trans hcfg, harg0'.trans harg0, harg1'.trans harg1, hibuf'.trans hibuf, hepoch'.trans hepoch⟩

/-! ### DEC: its frame and its count -/

theorem consumeText_keepsCfg (s : State) : (consumeText s).cfg = s.cfg := by
  rcases consumeText_cases s with ⟨pos, -, e⟩ | ⟨-, -, e⟩ | ⟨-, -, -, e⟩ | ⟨-, -, -, e⟩ <;> rw [e]
  · rfl
  · rfl
  · rfl
  · rw [finishDec]; split <;> rfl

/-- DEC keeps CFG on every ending (40_config.md R71). -/
theorem execDec_keepsCfg {s t : State} (h : execDec s = .next t) : t.cfg = s.cfg := by
  rcases execDec_cases h with ⟨-, rfl⟩ | ⟨-, -, rfl⟩ | ⟨_, -, -, -, rfl⟩ | ⟨_, -, -, -, -, rfl⟩ | ⟨_, -, -, -, -, rfl⟩
  · rfl
  · rfl
  · rfl
  · rfl
  · exact consumeText_keepsCfg s

theorem consumeText_res_le (s : State) : (consumeText s).res ≤ s.arg1 := by
  rcases consumeText_cases s with ⟨pos, -, e⟩ | ⟨-, -, e⟩ | ⟨-, -, -, e⟩ | ⟨-, -, hn, e⟩ <;> rw [e]
  · exact Nat.zero_le _
  · exact Nat.zero_le _
  · exact Nat.zero_le _
  · rw [finishDec]; split
    · exact Nat.zero_le _
    · exact hn

/-- The bytes a DEC returns lie in OBUF (43_decode.md R121, R123). -/
theorem execDec_res_le {s t : State} (h : execDec s = .next t) : t.res ≤ s.par.obufSize := by
  rcases execDec_cases h with ⟨-, rfl⟩ | ⟨-, -, rfl⟩ | ⟨_, -, -, -, rfl⟩ | ⟨_, -, -, -, -, rfl⟩ | ⟨_, hr, -, -, -, rfl⟩
  · exact Nat.zero_le _
  · exact Nat.zero_le _
  · exact Nat.zero_le _
  · exact Nat.zero_le _
  · exact (consumeText_res_le s).trans ((slicesInRange_iff s).mp hr).2

/-! ### What the host reads of a result -/

/-- A result that lies in OBUF is read as it stands there (10_state.md R29). -/
theorem resultBytes_eq {t : State} (h : t.res ≤ t.par.obufSize) : resultBytes t = (List.range t.res).map (obufByte t) :=
  List.map_congr_left fun _ hj => if_pos ((List.mem_range.mp hj).trans_le h)

/-- The host reads the text a successful ENC has written (42_encode.md R90, R100). -/
theorem resultBytes_finishEnc {u : State} (h : textLength (cfgPE u.cfg) u.arg0 ≤ u.par.obufSize) :
    resultBytes (finishEnc u).afterStatus = (List.range (textLength (cfgPE u.cfg) u.arg0)).map (encByte u) :=
  (resultBytes_eq (t := (finishEnc u).afterStatus) h).trans <|
    List.map_congr_left fun j hj => (obufByte_finishEnc u j).trans (if_pos (List.mem_range.mp hj))

theorem codeBits_eq_zero (c : Code) : codeBits c = 0#2 ↔ c = .ok := by cases c <;> decide

theorem decodeOutcome_halted {t : State} (h : isHalted t = true) : decodeOutcome t = .stopped := if_pos h

/-- What DECODE reads off a block that has not halted is the outcome of its DEC. -/
theorem decodeResult_eq {t : State} (h : t.res ≤ t.par.obufSize) (hn : isHalted t = false) :
    decodeResult t = decodeOutcome t := by
  rw [decodeResult, decodeOutcome, hn, if_neg Bool.false_ne_true, statusCode_eq, resultBytes_eq h]
  exact if_congr (codeBits_eq_zero t.code) rfl rfl

/-- The outcome of a DEC is in the registers that tell its ending and in the bytes below its count. -/
theorem decodeOutcome_congr {t v : State} (h : sameEnding t v) (hb : ∀ j, j < v.res → obufByte t j = obufByte v j) :
    decodeOutcome t = decodeOutcome v := by
  obtain ⟨hphase, hcode, hres, hpos, hbyte⟩ := h
  have hhalted : isHalted t = isHalted v := by rw [isHalted, isHalted, hphase]
  have hbytes : (List.range v.res).map (obufByte t) = (List.range v.res).map (obufByte v) :=
    List.map_congr_left fun j hj => hb j (List.mem_range.mp hj)
  rw [decodeOutcome, decodeOutcome, hhalted, hcode, hres, hpos, hbyte, hbytes]

/-! ### One command -/

/-- A pseudo-instruction of one command issues it (R69). -/
theorem issue_idle {s : State} {i : Instr} (window : Instr → Nat) (hp : s.phase = .idle) (hw : 16 ≤ s.par.lenW)
    (hi : i.wellFormed = true) :
    ∃ t, issue window i s = .next ⟨.issued, t⟩ ∧ t.phase = .busy (encode i).toNat (window i) :=
  ⟨_, by rw [issue, hostCommand_idle window hp hw (decodePort_encode hi), followedBy_next], rfl⟩

/-- LDCFG 0 and the wait for it load the Standard configuration and change nothing else that a command reads (40_config.md R72). -/
theorem ldcfgWait_idle {s : State} (window : Instr → Nat) (hp : s.phase = .idle) (hw : 16 ≤ s.par.lenW) :
    ∃ t, t.phase = .idle ∧ t.par = s.par ∧ t.cfg = 0x13D#11 ∧ t.arg1 = s.arg1 ∧ t.ibuf = s.ibuf ∧ t.epoch = s.epoch ∧
      ∀ rest, commandWait window (.ldcfg 0x00#8) rest s = rest t := by
  obtain ⟨rd, draws, t, ht, hc⟩ := commandWait_idle (i := .ldcfg 0x00#8) window hp hw (decodePort_encode rfl)
  obtain rfl := Host.Outcome.next.inj ht
  refine ⟨_, ?_, ?_, ?_, ?_, ?_, ?_, fun rest => (hc rest).trans (if_neg Bool.false_ne_true)⟩
  exacts [rfl, rfl, makeCfg_standard, rfl, rfl, rfl]

/-- The fields of the Standard configuration (40_config.md R72). -/
theorem standard_fields : cfgPE 0x13D#11 = true ∧ cfgAlpha 0x13D#11 = .standard ∧ cfgPad 0x13D#11 = 0x3D#8 := by
  rw [← makeCfg_standard]
  exact ⟨cfgPE_makeCfg _ _, cfgAlpha_makeCfg _ _, cfgPad_makeCfg _ _⟩

/-! ### The sizing command -/

/-- ENCSZ sizes the text by the operands it finds (41_size.md R81). -/
theorem execEncsz_of_sameOperands {s u : State} (h : sameOperands s u) :
    exec .encsz u = .next (finishSize (stateEncodedSize s) u) := by
  obtain ⟨hpar, hcfg, harg0, -⟩ := h
  rw [exec, execEncsz, stateEncodedSize, hpar, hcfg, harg0, stateEncodedSize]

/-- DECSZ sizes the data by the operands it finds (41_size.md R83). -/
theorem execDecsz_of_sameOperands {s u : State} (h : sameOperands s u) :
    exec .decsz u = .next (finishSize (stateDecodedSize s) u) := by
  obtain ⟨hpar, hcfg, harg0, -⟩ := h
  rw [exec, execDecsz, stateDecodedSize, hpar, hcfg, harg0, stateDecodedSize]

section
variable {s : State} (window : Instr → Nat) (hp : s.phase = .idle) (hwf : s.par.wf)
include hp hwf

/-! ### ENCODE -/

/-- ENCODE whose size overflows stops before ARG1 is written (R69). -/
theorem encodeCall_overflow {n : Nat} (hn : n < 2 ^ s.par.lenW) (hs : encodedSize s.par.lenW (cfgPE s.cfg) n = none) :
    ∃ t, encodeCall window n s = .next ⟨.stopped, t⟩ ∧ endedFatal t .overflow ∧ t.arg1 = s.arg1 ∧ t.cfg = s.cfg :=
  (sizedCall_idle (ask := .encsz) (run := .enc) window hp hwf.1 hn (decodePort_encode rfl) (decodePort_encode rfl) _
    (fun _ => encodedSize_lt) (fun _ => execEncsz_of_sameOperands) encodeResult).1 hs

/-- ENCODE whose size is computed ends as an ENC with that size as its capacity. -/
theorem encodeCall_sized {n size : Nat} (hn : n < 2 ^ s.par.lenW) (hs : encodedSize s.par.lenW (cfgPE s.cfg) n = some size) :
    ∃ u t, (u.par = s.par ∧ u.cfg = s.cfg ∧ u.arg0 = n ∧ u.arg1 = size ∧ ibufByte u = ibufByte s) ∧ execEnc u = .next t ∧
      encodeCall window n s =
        .next (if isHalted t then ⟨.stopped, t.afterStatus⟩ else ⟨encodeResult t.afterStatus, t.afterStatus⟩) := by
  obtain ⟨u, t, ⟨hpar, hcfg, harg0, harg1, hibuf, hepoch⟩, ht, hcall⟩ :=
    (sizedCall_idle (ask := .encsz) (run := .enc) window hp hwf.1 hn (decodePort_encode rfl) (decodePort_encode rfl) _
      (fun _ => encodedSize_lt) (fun _ => execEncsz_of_sameOperands) encodeResult).2 size hs
  exact ⟨u, t, ⟨hpar, hcfg, harg0, harg1, ibufByte_congr hibuf hepoch⟩, ht, hcall⟩

/-- ENCODE of an input and to a text that fit the buffers gives the text (R69). -/
theorem encodeCall_text {n size : Nat} (hn : n ≤ s.par.ibufSize)
    (hs : encodedSize s.par.lenW (cfgPE s.cfg) n = some size) (hsize : size ≤ s.par.obufSize) :
    ∃ t, encodeCall window n s = .next ⟨.text ((List.range size).map
        (textByte (symEntry s.par (cfgAlpha s.cfg)) (cfgPad s.cfg) (ibufByte s) n)), t⟩ ∧
      endedOk t size ∧ t.cfg = s.cfg ∧ t.arg0 = n ∧ t.arg1 = size := by
  obtain ⟨u, t, ⟨hpar, hcfg, harg0, harg1, hibuf⟩, ht, hcall⟩ :=
    encodeCall_sized window hp hwf (hn.trans_lt (Params.wf_ibufSize_lt hwf)) hs
  have hr : slicesInRange u = true := by rw [slicesInRange_iff, harg0, harg1, hpar]; exact ⟨hn, hsize⟩
  have hsu : stateEncodedSize u = some size := by rw [stateEncodedSize, hpar, hcfg, harg0]; exact hs
  rw [execEnc_success hr hsu harg1.ge] at ht
  obtain rfl := Host.Outcome.next.inj ht
  have hlen : textLength (cfgPE u.cfg) u.arg0 = size := textLength_of_encodedSize hsu
  have htext : encByte u = textByte (symEntry s.par (cfgAlpha s.cfg)) (cfgPad s.cfg) (ibufByte s) n := by
    have hsym : stateSym u = symEntry s.par (cfgAlpha s.cfg) := by funext v; rw [stateSym, hpar, hcfg]
    funext j
    rw [encByte, hsym, hcfg, hibuf, harg0]
  have hbytes := resultBytes_finishEnc (u := u) (by rwa [hlen, hpar])
  rw [hlen, htext] at hbytes
  refine ⟨(finishEnc u).afterStatus, hcall.trans ?_, ⟨rfl, rfl, hlen, rfl, rfl⟩, hcfg, harg0, harg1⟩
  rw [if_neg (show isHalted (finishEnc u) ≠ true from Bool.false_ne_true), encodeResult, hbytes]

/-- ENCODE with a length or a size above its buffer stops at ENC (R69, R143). -/
theorem encodeCall_bufRange {n size : Nat} (hn : n < 2 ^ s.par.lenW)
    (hs : encodedSize s.par.lenW (cfgPE s.cfg) n = some size) (hbuf : s.par.ibufSize < n ∨ s.par.obufSize < size) :
    ∃ t, encodeCall window n s = .next ⟨.stopped, t⟩ ∧ endedFatal t .bufRange ∧ t.cfg = s.cfg := by
  obtain ⟨u, t, ⟨hpar, hcfg, harg0, harg1, -⟩, ht, hcall⟩ := encodeCall_sized window hp hwf hn hs
  have hr : slicesInRange u = false := by
    rw [← Bool.not_eq_true, slicesInRange_iff, harg0, harg1, hpar]
    exact fun ⟨hle0, hle1⟩ => hbuf.elim (Nat.not_lt.mpr hle0) (Nat.not_lt.mpr hle1)
  rw [execEnc, if_pos hr] at ht
  obtain rfl := Host.Outcome.next.inj ht
  exact ⟨_, hcall, ⟨rfl, rfl, rfl, rfl, rfl⟩, hcfg⟩

/-! ### DECODE -/

/-- DECODE whose size overflows stops before ARG1 is written (R69). -/
theorem decodeCall_overflow {m : Nat} (hm : m < 2 ^ s.par.lenW) (hs : decodedSize s.par.lenW (cfgPE s.cfg) m = none) :
    ∃ t, decodeCall window m s = .next ⟨.stopped, t⟩ ∧ endedFatal t .overflow ∧ t.arg1 = s.arg1 ∧ t.cfg = s.cfg :=
  (sizedCall_idle (ask := .decsz) (run := .dec) window hp hwf.1 hm (decodePort_encode rfl) (decodePort_encode rfl) _
    (fun _ => decodedSize_lt) (fun _ => execDecsz_of_sameOperands) decodeResult).1 hs

/-- DECODE whose size is computed gives the outcome of a DEC with that size as its capacity (R69). -/
theorem decodeCall_outcome {m size : Nat} {r v : State} (hm : m < 2 ^ s.par.lenW)
    (hs : decodedSize s.par.lenW (cfgPE s.cfg) m = some size)
    (hr : sameOperands r { s with arg0 := m, arg1 := size }) (hv : execDec r = .next v) :
    ∃ t, decodeCall window m s = .next ⟨decodeOutcome v, t⟩ ∧ sameEnding t v ∧ t.cfg = s.cfg := by
  obtain ⟨u, t, hu, ht, hcall⟩ := (sizedCall_idle (ask := .decsz) (run := .dec) window hp hwf.1 hm
    (decodePort_encode rfl) (decodePort_encode rfl) _ (fun _ => decodedSize_lt)
    (fun _ => execDecsz_of_sameOperands) decodeResult).2 size hs
  obtain ⟨hend, hbytes⟩ := execDec_congr (sameOperands_trans hr hu) hv ht
  have hout : decodeOutcome t.afterStatus = decodeOutcome v := decodeOutcome_congr hend hbytes
  have hres : t.res ≤ t.par.obufSize := by
    rw [(exec_keepsInputs ht).1]; exact execDec_res_le ht
  refine ⟨t.afterStatus, hcall.trans ?_, hend, (execDec_keepsCfg ht).trans hu.2.1⟩
  rw [← hout]
  cases hh : isHalted t with
  | true => rw [if_pos rfl, decodeOutcome_halted (t := t.afterStatus) hh]
  | false => rw [if_neg Bool.false_ne_true, decodeResult_eq (t := t.afterStatus) hres hh]

end

/-- Settles O60: the calls under the configuration they find, and the default ones by the same lemmas on the block that LDCFG 0
leaves. -/
theorem hostCallsGiveResults : Obligations.HostCallsGiveResults := by
  unfold Obligations.HostCallsGiveResults
  intro window s hwf hp
  obtain ⟨d, hdp, hpar, hcfg, harg1, hibuf, hepoch, hld⟩ := ldcfgWait_idle window hp hwf.1
  obtain ⟨hpe, halpha, hpad⟩ := standard_fields
  have hdwf : d.par.wf := hpar ▸ hwf
  refine ⟨?_, ?_, ?_, ?_, ?_, ?_, ?_, ?_, ?_, ?_⟩
  · intro p hmem
    obtain ⟨hi, hcall⟩ : p.2.wellFormed = true ∧ runCall window p.1 = issue window p.2 := by
      rcases List.mem_append.mp hmem with hmem | hmem
      · fin_cases hmem <;> exact ⟨rfl, rfl⟩
      · obtain ⟨b, -, rfl⟩ := List.mem_map.mp hmem
        exact ⟨rfl, rfl⟩
    rw [hcall]
    exact issue_idle window hp hwf.1 hi
  · intro n size hn hs hsize
    exact encodeCall_text window hp hwf hn hs hsize
  · intro n hn hs
    obtain ⟨t, hcall, hend, harg, -⟩ := encodeCall_overflow window hp hwf hn hs
    exact ⟨t, hcall, hend, harg⟩
  · intro n size hn hs hbuf
    obtain ⟨t, hcall, hend, -⟩ := encodeCall_bufRange window hp hwf hn hs hbuf
    exact ⟨t, hcall, hend⟩
  · intro m size v hm hs hv
    exact decodeCall_outcome window hp hwf hm hs ⟨rfl, rfl, rfl, rfl, rfl, rfl⟩ hv
  · intro m hm hs
    obtain ⟨t, hcall, hend, harg, -⟩ := decodeCall_overflow window hp hwf hm hs
    exact ⟨t, hcall, hend, harg⟩
  · intro n size hn hs hsize
    obtain ⟨t, hcall, hend, hc, -, -⟩ := encodeCall_text (s := d) (n := n) (size := size) window hdp hdwf
      (by rwa [hpar]) (by rwa [hpar, hcfg, hpe]) (by rwa [hpar])
    rw [hpar, hcfg, halpha, hpad, ibufByte_congr hibuf hepoch] at hcall
    exact ⟨t, (hld _).trans hcall, hend, hc.trans hcfg⟩
  · intro n hn hs
    obtain ⟨t, hcall, hend, harg, hc⟩ := encodeCall_overflow (s := d) (n := n) window hdp hdwf
      (by rwa [hpar]) (by rwa [hpar, hcfg, hpe])
    exact ⟨t, (hld _).trans hcall, hend, harg.trans harg1, hc.trans hcfg⟩
  · intro n size hn hs hbuf
    obtain ⟨t, hcall, hend, hc⟩ := encodeCall_bufRange (s := d) (n := n) (size := size) window hdp hdwf
      (by rwa [hpar]) (by rwa [hpar, hcfg, hpe]) (by rwa [hpar])
    exact ⟨t, (hld _).trans hcall, hend, hc.trans hcfg⟩
  · intro m size v hm hs hv
    obtain ⟨t, hcall, hend, hc⟩ := decodeCall_outcome (s := d) (m := m) (size := size)
      (r := { s with cfg := 0x13D#11, arg0 := m, arg1 := size }) window hdp hdwf (by rwa [hpar])
      (by rwa [hpar, hcfg, hpe]) ⟨hpar, hcfg, rfl, rfl, hibuf, hepoch⟩ hv
    exact ⟨t, (hld _).trans hcall, hend, hc.trans hcfg⟩

end Sys2Proof.Machine
end

section
/-! SUPPORT. The configuration commands LDCFG, SETPAD and CLRPAD: what each does to CFG, that they touch nothing else, that the data
commands keep CFG, and that every legal configuration is reached (40_config.md R71 to R76). -/

namespace Sys2Proof.Machine

/-! ### What a configuration command can do -/

/-- SETPAD of a byte that is no symbol of the selected alphabet installs it (R73). -/
theorem execSetpad_installs {b : Byte} {s : State} (h : invEntry s.par (cfgAlpha s.cfg) b = s.par.invalid) :
    execSetpad b s = .next ((s.setCfg (makeCfg (cfgAlpha s.cfg) (some b))).done 0) :=
  if_neg (not_not.mpr ((invLookup_isNone _ _ b).mpr h))

/-- SETPAD of a symbol of the selected alphabet halts the block (R74). -/
theorem execSetpad_halts {b : Byte} {s : State} (h : invEntry s.par (cfgAlpha s.cfg) b ≠ s.par.invalid) :
    execSetpad b s = .next (s.raiseFatal .config) :=
  if_pos (mt (invLookup_isNone _ _ b).mp h)

/-- A configuration command writes CFG and succeeds, or halts with F_CONFIG (R72 to R75). -/
theorem exec_configCommand_cases {i : Instr} {s t : State}
    (hi : i = .clrpad ∨ (∃ imm, i = .ldcfg imm) ∨ ∃ b, i = .setpad b) (h : exec i s = .next t) :
    (∃ c, t = (s.setCfg c).done 0) ∨ t = s.raiseFatal .config := by
  rcases hi with rfl | ⟨imm, rfl⟩ | ⟨b, rfl⟩
  · exact .inl ⟨_, (Host.Outcome.next.inj h).symm⟩
  · exact .inl ⟨_, (Host.Outcome.next.inj h).symm⟩
  · rcases execSetpad_cases h with ⟨-, rfl⟩ | ⟨-, rfl⟩
    · exact .inr rfl
    · exact .inl ⟨_, rfl⟩

/-! ### The data commands keep CFG -/

theorem finishSize_keepsCfg (r : Option Nat) (s : State) : (finishSize r s).cfg = s.cfg := by
  rcases finishSize_cases r s with ⟨-, e⟩ | ⟨v, -, e⟩
  · rw [e, State.raiseFatal_cfg]
  · rw [e, State.done_cfg]

theorem execEnc_keepsCfg {s t : State} (h : execEnc s = .next t) : t.cfg = s.cfg := by
  rcases execEnc_cases h with ⟨-, rfl⟩ | ⟨-, -, rfl⟩ | ⟨_, -, -, -, rfl⟩ | ⟨_, -, -, -, rfl⟩
  · exact State.raiseFatal_cfg s _
  · exact State.raiseFatal_cfg s _
  · exact State.raiseFatal_cfg s _
  · rw [finishEnc, State.done_cfg, State.writeObuf_cfg]

theorem execPadd_keepsCfg {s t : State} (h : execPadd s = .next t) : t.cfg = s.cfg := by
  rcases execPadd_cases h with ⟨-, rfl⟩ | ⟨-, -, rfl⟩ | ⟨-, -, -, rfl⟩ | ⟨-, -, -, rfl⟩
  · exact State.raiseFatal_cfg s _
  · exact State.done_cfg s _
  · exact State.raiseFatal_cfg s _
  · rw [finishPadd, State.done_cfg, State.writeObuf_cfg]

/-- Settles O24, command by command; DEC by `execDec_keepsCfg`. -/
theorem dataCommandsKeepCfg : Obligations.DataCommandsKeepCfg := by
  unfold Obligations.DataCommandsKeepCfg
  rintro i s t (rfl | rfl | rfl | rfl | rfl) h
  · obtain rfl := Host.Outcome.next.inj h
    exact finishSize_keepsCfg _ s
  · obtain rfl := Host.Outcome.next.inj h
    exact finishSize_keepsCfg _ s
  · exact execEnc_keepsCfg h
  · exact execPadd_keepsCfg h
  · exact execDec_keepsCfg h

/-! ### Every legal configuration -/

/-- The immediate that makes LDCFG select an alphabet: its number in IMM[1:0], 0 above (30_encoding.md R59). -/
def ldcfgImm (a : Alphabet) : Byte := 0#6 ++ alphabetBits a

theorem wellFormed_ldcfgImm (a : Alphabet) : (Instr.ldcfg (ldcfgImm a)).wellFormed = true := by
  cases a <;> rfl

@[simp] theorem immAlphabet_ldcfgImm (a : Alphabet) : immAlphabet (ldcfgImm a) = a := by
  cases a <;> rfl

/-- LDCFG selects every alphabet (R72). -/
theorem execLdcfg_ldcfgImm (a : Alphabet) (s : State) :
    execLdcfg (ldcfgImm a) s = .next ((s.setCfg (makeCfg a (builtInPad a))).done 0) := by
  rw [execLdcfg, immAlphabet_ldcfgImm]

/-- From a state that selects the alphabet of a legal configuration, CLRPAD or SETPAD leads to that configuration (R73, R75). -/
theorem padCommand_reaches {s : State} {c : BitVec 11} (hc : cfgLegal s.par c) (ha : cfgAlpha s.cfg = cfgAlpha c) :
    ∃ i, (i = .clrpad ∨ ∃ b, i = .setpad b) ∧ exec i s = .next ((s.setCfg c).done 0) := by
  have hmake := makeCfg_of_cfgLegal hc
  cases hpe : cfgPE c with
  | false =>
    have hnone : cfgPadOption c = none := by simp [cfgPadOption, hpe]
    refine ⟨.clrpad, .inl rfl, ?_⟩
    rw [exec, execClrpad, ha, ← hnone, hmake]
  | true =>
    have hsome : cfgPadOption c = some (cfgPad c) := by simp [cfgPadOption, hpe]
    refine ⟨.setpad (cfgPad c), .inr ⟨_, rfl⟩, ?_⟩
    have hsym : invEntry s.par (cfgAlpha s.cfg) (cfgPad c) = s.par.invalid := ha ▸ hc.2 hpe
    rw [exec, execSetpad_installs hsym, ha, ← hsome, hmake]

/-- Settles O25: LDCFG selects the alphabet, then SETPAD or CLRPAD gives the pad byte. -/
theorem everyConfigurationReachable : Obligations.EveryConfigurationReachable := by
  unfold Obligations.EveryConfigurationReachable
  intro s c _ hc
  have hload := execLdcfg_ldcfgImm (cfgAlpha c) s
  obtain ⟨i, hi, hexec⟩ := padCommand_reaches (s := (s.setCfg (makeCfg (cfgAlpha c) (builtInPad (cfgAlpha c)))).done 0) hc
    (by rw [State.done_cfg, State.setCfg_cfg, cfgAlpha_makeCfg])
  exact ⟨ldcfgImm (cfgAlpha c), i, _, _, wellFormed_ldcfgImm _, hi, hload, hexec, rfl, rfl⟩

/-! ### The commands one by one -/

/-- Settles O19: the four built-in configurations, each a closed value of CFG. -/
theorem ldcfgLoadsBuiltIn : Obligations.LdcfgLoadsBuiltIn := by
  unfold Obligations.LdcfgLoadsBuiltIn
  intro imm s
  have key {n : BitVec 2} (h : imm.extractLsb' 0 2 = n) :
      makeCfg (immAlphabet imm) (builtInPad (immAlphabet imm)) = makeCfg (alphabetOfBits n) (builtInPad (alphabetOfBits n)) := by
    rw [immAlphabet, h]
  exact ⟨_, rfl, (endedOk_done _ 0 0).mpr rfl, fun h => (key h).trans (by decide), fun h => (key h).trans (by decide),
    fun h => (key h).trans (by decide), fun h => (key h).trans (by decide)⟩

/-- Settles O20, by `execSetpad_installs` and the fields of the installed CFG. -/
theorem setpadInstallsPad : Obligations.SetpadInstallsPad := by
  unfold Obligations.SetpadInstallsPad
  intro b s h
  exact ⟨_, execSetpad_installs h, (endedOk_done _ 0 0).mpr rfl, cfgPE_makeCfg _ (some b), cfgPad_makeCfg _ (some b),
    cfgAlpha_makeCfg _ (some b)⟩

/-- Settles O21, by `execSetpad_halts`. -/
theorem setpadOfSymbolHalts : Obligations.SetpadOfSymbolHalts := by
  unfold Obligations.SetpadOfSymbolHalts
  intro b s h
  exact ⟨_, execSetpad_halts h, (endedFatal_raiseFatal s _ _).mpr rfl, State.raiseFatal_cfg s _⟩

/-- Settles O22, by the fields of a CFG without a pad byte. -/
theorem clrpadRemovesPad : Obligations.ClrpadRemovesPad := by
  unfold Obligations.ClrpadRemovesPad
  intro s
  exact ⟨_, rfl, (endedOk_done _ 0 0).mpr rfl, cfgPE_makeCfg _ none, cfgPad_makeCfg _ none, cfgAlpha_makeCfg _ none⟩

/-- Settles O23: the inputs by `exec_keepsInputs`, the rest by the two ends a configuration command can have. -/
theorem configCommandsFrame : Obligations.ConfigCommandsFrame := by
  unfold Obligations.ConfigCommandsFrame
  intro i s t hi h
  refine ⟨exec_keepsInputs h, ?_⟩
  rcases exec_configCommand_cases hi h with ⟨c, rfl⟩ | rfl
  · exact ⟨rfl, rfl, rfl, rfl, fun _ => rfl, fun _ _ => rfl⟩
  · exact ⟨rfl, rfl, rfl, rfl, fun _ => rfl, fun _ _ => rfl⟩

end Sys2Proof.Machine
end

section
/-! SUPPORT. The Size Calculator (41_size.md): the exact thresholds of R80 and R82, how ENCSZ and DECSZ end, the size bounds of R85,
and the count of a successful DEC against `decoded_size` (R84). -/

namespace Sys2Proof.Machine

/-! ### The thresholds -/

/-- `2^LEN_W` is a multiple of 8, the form the thresholds of R80 are written in. -/
theorem two_pow_eq_eight_mul {w : Nat} (hw : 3 ≤ w) : 2 ^ w = 8 * 2 ^ (w - 3) := by
  rw [show 8 = 2 ^ 3 from rfl, ← pow_add, Nat.add_sub_cancel' hw]

/-- Padded, the multiplication is the first intermediate to overflow (R80). -/
theorem encodedSize_padded_threshold {w : Nat} (hw : 3 ≤ w) (n : Nat) :
    encodedSize w true n = if n ≤ 5 * 2 ^ (w - 3) - 5 then some ((n + 4) / 5 * 8) else none := by
  have hq := Nat.two_pow_pos (w - 3)
  rw [encodedSize_padded, two_pow_eq_eight_mul hw]
  exact if_congr (by omega) rfl rfl

/-- Unpadded, `8n` and `8n + 4` overflow at the same `n`, since `2^LEN_W` is a multiple of 8 (R80). -/
theorem encodedSize_unpadded_threshold {w : Nat} (hw : 3 ≤ w) (n : Nat) :
    encodedSize w false n = if n ≤ 2 ^ (w - 3) - 1 then some ((8 * n + 4) / 5) else none := by
  have hq := Nat.two_pow_pos (w - 3)
  rw [encodedSize_unpadded, two_pow_eq_eight_mul hw, Nat.mul_comm n 8]
  exact if_congr (by omega) rfl rfl

/-- Padded, `decoded_size` of a LEN_W-bit length never overflows (R82). -/
theorem decodedSize_padded_of_lt {w m : Nat} (hm : m < 2 ^ w) : decodedSize w true m = some (m / 8 * 5) := by
  rw [decodedSize_padded, if_pos (by omega)]

theorem decodedSize_unpadded_threshold (w m : Nat) :
    decodedSize w false m = if m ≤ (2 ^ w - 1) / 5 then some (5 * m / 8) else none := by
  have hpos := Nat.two_pow_pos w
  rw [decodedSize_unpadded, Nat.mul_comm m 5]
  exact if_congr (by omega) rfl rfl

/-! ### The two ends of a size command -/

theorem finishSize_endedOk {r : Option Nat} {v : Nat} (h : r = some v) (s : State) : endedOk (finishSize r s) v := by
  subst h
  exact (endedOk_done s v v).mpr rfl

theorem finishSize_endedFatal {r : Option Nat} (h : r = none) (s : State) : endedFatal (finishSize r s) .overflow := by
  subst h
  exact (endedFatal_raiseFatal s _ _).mpr rfl

/-- A size command runs `finishSize` on its size (R81, R83). -/
theorem exec_sizeCommand {i : Instr} {s t : State} (hi : i = .encsz ∨ i = .decsz) (h : exec i s = .next t) :
    ∃ r, t = finishSize r s := by
  rcases hi with rfl | rfl
  · exact ⟨_, (Host.Outcome.next.inj h).symm⟩
  · exact ⟨_, (Host.Outcome.next.inj h).symm⟩

/-! ### ENCSZ and DECSZ -/

/-- Settles O26, by the two thresholds of `encodedSize`. -/
theorem encszReturnsSize : Obligations.EncszReturnsSize := by
  unfold Obligations.EncszReturnsSize
  intro s hwf
  have hw : 3 ≤ s.par.lenW := le_trans (by decide) hwf.1
  constructor
  · intro hpe hle
    refine ⟨_, rfl, finishSize_endedOk ?_ s⟩
    rw [stateEncodedSize, hpe, encodedSize_padded_threshold hw, if_pos hle]
  · intro hpe hle
    refine ⟨_, rfl, finishSize_endedOk ?_ s⟩
    rw [stateEncodedSize, hpe, encodedSize_unpadded_threshold hw, if_pos hle]

/-- Settles O27, by the two thresholds of `encodedSize`. -/
theorem encszOverflowHalts : Obligations.EncszOverflowHalts := by
  unfold Obligations.EncszOverflowHalts
  intro s hwf
  have hw : 3 ≤ s.par.lenW := le_trans (by decide) hwf.1
  constructor
  · intro hpe hlt
    refine ⟨_, rfl, finishSize_endedFatal ?_ s⟩
    rw [stateEncodedSize, hpe, encodedSize_padded_threshold hw, if_neg (Nat.not_le.mpr hlt)]
  · intro hpe hlt
    refine ⟨_, rfl, finishSize_endedFatal ?_ s⟩
    rw [stateEncodedSize, hpe, encodedSize_unpadded_threshold hw, if_neg (Nat.not_le.mpr hlt)]

/-- Settles O28: padded no overflow is possible, unpadded by the threshold of `decodedSize`. -/
theorem decszReturnsSize : Obligations.DecszReturnsSize := by
  unfold Obligations.DecszReturnsSize
  intro s hm
  constructor
  · intro hpe
    refine ⟨_, rfl, finishSize_endedOk ?_ s⟩
    rw [stateDecodedSize, hpe, decodedSize_padded_of_lt hm]
  · intro hpe hle
    refine ⟨_, rfl, finishSize_endedOk ?_ s⟩
    rw [stateDecodedSize, hpe, decodedSize_unpadded_threshold, if_pos hle]

/-- Settles O29, by the threshold of `decodedSize`. -/
theorem decszOverflowHalts : Obligations.DecszOverflowHalts := by
  unfold Obligations.DecszOverflowHalts
  intro s hpe hlt
  refine ⟨_, rfl, finishSize_endedFatal ?_ s⟩
  rw [stateDecodedSize, hpe, decodedSize_unpadded_threshold, if_neg (Nat.not_le.mpr hlt)]

/-- Settles O30: the inputs by `exec_keepsInputs`, the rest by the two ends of a size command. -/
theorem sizeCommandsFrame : Obligations.SizeCommandsFrame := by
  unfold Obligations.SizeCommandsFrame
  intro i s t hi h
  refine ⟨exec_keepsInputs h, ?_⟩
  obtain ⟨r, rfl⟩ := exec_sizeCommand hi h
  rcases finishSize_cases r s with ⟨-, e⟩ | ⟨v, -, e⟩ <;> rw [e]
  · exact ⟨rfl, rfl, rfl, rfl, fun _ => rfl, fun _ _ => rfl⟩
  · exact ⟨rfl, rfl, rfl, rfl, fun _ => rfl, fun _ _ => rfl⟩

/-! ### What the sizes promise -/

/-- A size that is computed has the value of its formula (R80). -/
theorem encodedSize_eq {w n v : Nat} {pe : Bool} (h : encodedSize w pe n = some v) :
    v = if pe then (n + 4) / 5 * 8 else (8 * n + 4) / 5 := by
  cases pe with
  | false =>
    rw [encodedSize_unpadded, Option.ite_none_right_eq_some, Option.some_inj, Nat.mul_comm] at h
    exact h.2.symm
  | true =>
    rw [encodedSize_padded, Option.ite_none_right_eq_some, Option.some_inj] at h
    exact h.2.symm

/-- A size that is computed has the value of its formula (R82). -/
theorem decodedSize_eq {w m v : Nat} {pe : Bool} (h : decodedSize w pe m = some v) :
    v = if pe then m / 8 * 5 else 5 * m / 8 := by
  cases pe with
  | false =>
    rw [decodedSize_unpadded, Option.ite_none_right_eq_some, Option.some_inj, Nat.mul_comm] at h
    exact h.2.symm
  | true =>
    rw [decodedSize_padded, Option.ite_none_right_eq_some, Option.some_inj] at h
    exact h.2.symm

/-- `decoded_size(encoded_size(n))` is never below `n`, and is `n` unpadded (R85). -/
theorem decodedSize_encodedSize {w n v u : Nat} {pe : Bool} (hv : encodedSize w pe n = some v)
    (hu : decodedSize w pe v = some u) : n ≤ u ∧ (pe = false → u = n) := by
  have hv := encodedSize_eq hv
  have hu := decodedSize_eq hu
  cases pe with
  | false =>
    simp only [Bool.false_eq_true, if_false] at hv hu
    have hun : u = n := by omega
    exact ⟨hun.ge, fun _ => hun⟩
  | true =>
    simp only [if_true] at hv hu
    exact ⟨by omega, nofun⟩

/-- `encoded_size` does not decrease (R85). -/
theorem encodedSize_mono {w n n' v v' : Nat} {pe : Bool} (hn : n ≤ n') (hv : encodedSize w pe n = some v)
    (hv' : encodedSize w pe n' = some v') : v ≤ v' := by
  rw [encodedSize_eq hv, encodedSize_eq hv']
  cases pe with
  | false => exact Nat.div_le_div_right (by omega)
  | true => exact Nat.mul_le_mul_right 8 (Nat.div_le_div_right (by omega))

/-- Settles O31, by `decodedSize_encodedSize` and `encodedSize_mono`. -/
theorem sizeBounds : Obligations.SizeBounds := by
  unfold Obligations.SizeBounds
  intro w pe n v hv
  exact ⟨fun u hu => decodedSize_encodedSize hv hu, fun n' v' hn hv' => encodedSize_mono hn hv hv'⟩

/-! ### The count of a successful DEC -/

@[simp] theorem finishDec_res (s : State) : (finishDec s).res = decCount s := by
  rw [finishDec]
  split
  · rw [State.done_res, decCount_empty ‹_›]
  · rw [State.done_res]

/-- The one way a DEC ends with OK: all its checks pass (43_decode.md R123, R135). -/
theorem execDec_ok {s t : State} (h : execDec s = .next t) (hp : t.phase = .idle) (hc : t.code = .ok) :
    ∃ size, stateDecodedSize s = some size ∧ badSymbolCount (decTailSymbols s) = false ∧ t = finishDec s := by
  rcases execDec_cases h with ⟨-, rfl⟩ | ⟨-, -, rfl⟩ | ⟨_, -, -, -, rfl⟩ | ⟨_, -, -, -, -, rfl⟩ | ⟨size, -, hs, -, -, rfl⟩
  · cases hp
  · cases hp
  · cases hp
  · cases hc
  · rcases consumeText_cases s with ⟨pos, -, e⟩ | ⟨-, -, e⟩ | ⟨-, -, -, e⟩ | ⟨-, hb, -, e⟩ <;> rw [e] at hp hc
    · cases hc
    · cases hc
    · cases hp
    · exact ⟨size, hs, hb, e⟩

/-- The bytes a text gives are never more than five eighths of its length (R84). -/
theorem decCount_le (s : State) : decCount s ≤ 5 * s.arg0 / 8 := by
  have htext := (bodyChunks_tail s.arg0).1
  have hstop : decTailSymbols s ≤ tailLength s.arg0 := tailStop_le _ _ _
  have hbytes := (tailBytes_le (decTailSymbols s)).1
  rw [decCount]
  omega

/-- Without a pad byte every symbol counts, so the count is `5m/8` exactly (R84). -/
theorem decCount_unpadded {s : State} (hpe : cfgPE s.cfg = false) (hb : badSymbolCount (decTailSymbols s) = false) :
    decCount s = 5 * s.arg0 / 8 := by
  have htext := (bodyChunks_tail s.arg0).1
  have htail := decTailSymbols_unpadded hpe
  rw [decCount, tailBytes_eq (decTailSymbols_le s) hb]
  omega

/-- Settles O48: RES is `decCount`, which `decCount_unpadded` and `decCount_le` compare with `decoded_size`. -/
theorem decCountAgainstSize : Obligations.DecCountAgainstSize := by
  unfold Obligations.DecCountAgainstSize
  intro s t h hp hc
  obtain ⟨size, hs, hb, rfl⟩ := execDec_ok h hp hc
  rw [finishDec_res]
  have hle := decCount_le s
  refine ⟨fun hpe => ?_, fun _ _ => hle, fun _ _ => by omega⟩
  rw [stateDecodedSize, hpe] at hs
  rw [hs, decodedSize_eq hs, decCount_unpadded hpe hb]
  rfl

end Sys2Proof.Machine
end

section
/-! SUPPORT. The text of ENC (42_encode.md) as a function of its input: its length, where it holds a symbol and where a pad byte,
that it is made block by block, and the value of a group as the statements write it. -/

namespace Sys2Proof.Machine

/-! ### The length of the text -/

/-- A text is its symbols and, in a padded configuration, the pad bytes of R98. -/
theorem textLength_eq (pe : Bool) (n : Nat) : textLength pe n = symbolCount n + if pe then padCount (n % 5) else 0 := by
  have hr : n % 5 < 5 := Nat.mod_lt n (by decide)
  rw [textLength, symbolCount]
  generalize n % 5 = r at hr
  cases pe <;> interval_cases r <;> rfl

/-- The count of R100, `8q`, `8q + 8` or `8q + c(r)`. -/
theorem textLength_formula (pe : Bool) (n : Nat) :
    textLength pe n = 8 * (n / 5) + (if n % 5 = 0 then 0 else if pe then 8 else (8 * (n % 5) + 4) / 5) := by
  rw [textLength]
  split_ifs <;> rfl

section
variable (q m : Nat)

theorem symbolCount_add : symbolCount (5 * q + m) = 8 * q + symbolCount m := by
  rw [symbolCount, symbolCount, Nat.mul_add_div (by decide), Nat.mul_add_mod, Nat.mul_add, Nat.add_assoc]

theorem textLength_add (pe : Bool) : textLength pe (5 * q + m) = 8 * q + textLength pe m := by
  rw [textLength_eq, textLength_eq, symbolCount_add, Nat.mul_add_mod, Nat.add_assoc]

end

/-! ### The bytes of the text -/

section
variable (sym : Symbol → Byte) (pad : Byte) (T : Nat → Byte)

/-- Below `symbolCount` the text is symbols (R93, R96). -/
theorem textByte_symbol {n g k : Nat} (hk : k < 8) (h : 8 * g + k < symbolCount n) :
    textByte sym pad T n (8 * g + k) = sym (symbolOf (groupValue T n g) k) := by
  rw [textByte, if_pos h, Nat.mul_add_div (by decide), Nat.div_eq_of_lt hk, Nat.mul_add_mod, Nat.mod_eq_of_lt hk, Nat.add_zero]

/-- From `symbolCount` on the text is pad bytes (R99). -/
theorem textByte_pad {n j : Nat} (h : symbolCount n ≤ j) : textByte sym pad T n j = pad :=
  if_neg (Nat.not_lt.mpr h)

/-- The pad byte does not enter the symbols. -/
theorem textByte_pad_irrelevant {n j : Nat} (pad' : Byte) (h : j < symbolCount n) :
    textByte sym pad T n j = textByte sym pad' T n j := by
  rw [textByte, textByte, if_pos h, if_pos h]

/-- The text depends on its input below its length only. -/
theorem textByte_congr {T' : Nat → Byte} {n : Nat} (h : ∀ i, i < n → T i = T' i) (j : Nat) :
    textByte sym pad T n j = textByte sym pad T' n j := by
  have hbyte : groupByte T n = groupByte T' n := funext fun i => if_ctx_congr Iff.rfl (h i) fun _ => rfl
  rw [textByte, textByte, groupValue, groupValue, hbyte]

/-- A group whose bytes all stand below `n'` is the same in the text of `n'` bytes and in a longer one. -/
theorem groupValue_take {n n' g : Nat} (hn : n' ≤ n) (hg : 5 * g + 5 ≤ n') : groupValue T n g = groupValue T n' g := by
  have hbyte : ∀ i, i < n' → groupByte T n i = groupByte T n' i := fun i hi =>
    (if_pos (hi.trans_le hn)).trans (if_pos hi).symm
  rw [groupValue, groupValue, hbyte _ (by omega), hbyte _ (by omega), hbyte _ (by omega), hbyte _ (by omega),
    hbyte _ (by omega)]

/-- The first `8q` bytes of a text are the text of its first `5q` input bytes (R104 (b)). -/
theorem textByte_take {q m j : Nat} (hj : j < 8 * q) :
    textByte sym pad T (5 * q + m) j = textByte sym pad T (5 * q) j := by
  have hall : j < symbolCount (5 * q + m) := by rw [symbolCount_add]; omega
  have hfirst : j < symbolCount (5 * q) := by rw [symbolCount, Nat.mul_div_cancel_left q (by decide)]; omega
  rw [textByte, textByte, if_pos hall, if_pos hfirst, groupValue_take T (Nat.le_add_right _ m) (by omega)]

theorem groupValue_add (q m g : Nat) : groupValue T (5 * q + m) (q + g) = groupValue (fun d => T (5 * q + d)) m g := by
  simp only [groupValue, groupByte, Nat.mul_add, Nat.add_assoc, Nat.add_lt_add_iff_left]

/-- From index `8q` on a text is the text of its input from `5q` on (R104 (b)). -/
theorem textByte_add (q m j : Nat) :
    textByte sym pad T (5 * q + m) (8 * q + j) = textByte sym pad (fun d => T (5 * q + d)) m j := by
  rw [textByte, textByte, symbolCount_add, Nat.mul_add_div (by decide), Nat.mul_add_mod, groupValue_add]
  exact if_congr (Nat.add_lt_add_iff_left) rfl rfl

end

/-! ### The value of a group -/

/-- A symbol as the statements write it: `(V >> (35 - 5k)) & 0x1F` (R93). -/
theorem symbolOf_eq_ofNat (V : Group) (k : Nat) : symbolOf V k = BitVec.ofNat 5 (V.toNat / 2 ^ (35 - 5 * k)) := by
  apply BitVec.eq_of_toNat_eq
  rw [symbolOf_toNat, BitVec.toNat_ofNat]

/-- A full group is the big-endian value of its five bytes (R92). -/
theorem groupValue_full {T : Nat → Byte} {n g : Nat} (h : 5 * g + 5 ≤ n) :
    (groupValue T n g).toNat = (T (5 * g)).toNat * 2 ^ 32 + (T (5 * g + 1)).toNat * 2 ^ 24 +
      (T (5 * g + 2)).toNat * 2 ^ 16 + (T (5 * g + 3)).toNat * 2 ^ 8 + (T (5 * g + 4)).toNat := by
  have hbyte : ∀ i, i < n → groupByte T n i = T i := fun i hi => if_pos hi
  rw [groupValue_toNat, hbyte _ (by omega), hbyte _ (by omega), hbyte _ (by omega), hbyte _ (by omega), hbyte _ (by omega)]

/-- A partial group is the big-endian value of its `r` bytes, zeros in the place of the missing ones (R95). -/
theorem groupValue_partial {T : Nat → Byte} {q r : Nat} (hr : r < 5) :
    (groupValue T (5 * q + r) q).toNat = ((List.range r).map fun i => (T (5 * q + i)).toNat * 2 ^ (32 - 8 * i)).sum := by
  have hbyte : ∀ i, (groupByte T (5 * q + r) (5 * q + i)).toNat = if i < r then (T (5 * q + i)).toNat else 0 := by
    intro i
    simp only [groupByte, Nat.add_lt_add_iff_left]
    split <;> rfl
  rw [groupValue_toNat, sum_groupBytes (fun i => (T (5 * q + i)).toNat) r hr, ← hbyte, ← hbyte, ← hbyte, ← hbyte, ← hbyte]
  rfl

end Sys2Proof.Machine
end

section
/-! SUPPORT. ENC and PADD (42_encode.md R90 to R105): what each writes, what it returns, where it halts and what it leaves as it
was. -/

namespace Sys2Proof.Machine

theorem slicesInRange_eq_false_iff (s : State) :
    slicesInRange s = false ↔ s.par.ibufSize < s.arg0 ∨ s.par.obufSize < s.arg1 := by
  rw [← Bool.not_eq_true, slicesInRange_iff, not_and_or, Nat.not_le, Nat.not_le]

theorem outputInRange_eq_false_iff (s : State) : outputInRange s = false ↔ s.par.obufSize < s.arg1 := by
  rw [← Bool.not_eq_true, outputInRange_iff, Nat.not_le]

/-! ### ENC -/

/-- The one way ENC ends in IDLE: all its checks pass (R105). -/
theorem execEnc_idle {s t : State} (h : execEnc s = .next t) (hp : t.phase = .idle) :
    ∃ size, slicesInRange s = true ∧ stateEncodedSize s = some size ∧ size ≤ s.arg1 ∧ t = finishEnc s := by
  rcases execEnc_cases h with ⟨-, rfl⟩ | ⟨-, -, rfl⟩ | ⟨_, -, -, -, rfl⟩ | hok
  · cases hp
  · cases hp
  · cases hp
  · exact hok

/-- The count of an ENC that ends in IDLE (R100). -/
theorem execEnc_res {s t : State} (h : execEnc s = .next t) (hp : t.phase = .idle) :
    t.res = textLength (cfgPE s.cfg) s.arg0 := by
  obtain ⟨_, -, -, -, rfl⟩ := execEnc_idle h hp
  rfl

theorem finishEnc_endedOk {s : State} {size : Nat} (hs : stateEncodedSize s = some size) : endedOk (finishEnc s) size :=
  (endedOk_done _ _ _).mpr (textLength_of_encodedSize hs)

/-- A symbol of the text in OBUF after a successful ENC, as arithmetic on its group (R93, R96). -/
theorem obufByte_finishEnc_symbol (s : State) {g k : Nat} (hk : k < 8) (h : 8 * g + k < symbolCount s.arg0) :
    obufByte (finishEnc s) (8 * g + k) = symEntry s.par (cfgAlpha s.cfg)
      (BitVec.ofNat 5 ((groupValue (ibufByte s) s.arg0 g).toNat / 2 ^ (35 - 5 * k))) := by
  have hlen : 8 * g + k < textLength (cfgPE s.cfg) s.arg0 := by rw [textLength_eq]; omega
  rw [obufByte_finishEnc, if_pos hlen, encByte, textByte_symbol _ _ _ hk h, symbolOf_eq_ofNat, stateSym]

/-- Settles O32: the symbols by `obufByte_finishEnc_symbol`, the value of their group by `groupValue_full`. -/
theorem encWritesFullGroups : Obligations.EncWritesFullGroups := by
  unfold Obligations.EncWritesFullGroups
  intro s size hi ho hs hc
  refine ⟨finishEnc s, execEnc_success ((slicesInRange_iff s).mpr ⟨hi, ho⟩) hs hc, finishEnc_endedOk hs, fun g k hg hk => ?_⟩
  have hsym : 8 * g + k < symbolCount s.arg0 := by rw [symbolCount]; omega
  rw [obufByte_finishEnc_symbol s hk hsym, groupValue_full (by omega)]

/-- Settles O33: the symbols by `obufByte_finishEnc_symbol` and `groupValue_partial`, the pad bytes by `textByte_pad`. -/
theorem encWritesPartialGroup : Obligations.EncWritesPartialGroup := by
  unfold Obligations.EncWritesPartialGroup
  intro s size q r hi ho hs hc hn hr0 hr
  have hq : s.arg0 / 5 = q := by omega
  have hmod : s.arg0 % 5 = r := by omega
  have hcount : symbolCount s.arg0 = 8 * q + (8 * r + 4) / 5 := by rw [symbolCount, hq, hmod, remainderSymbols]
  refine ⟨finishEnc s, execEnc_success ((slicesInRange_iff s).mpr ⟨hi, ho⟩) hs hc, fun k hk => ?_, fun hpe k hk hk8 => ?_⟩
  · rw [obufByte_finishEnc_symbol s (by omega) (by omega), hn, groupValue_partial hr]
  · have hlen : 8 * q + k < textLength (cfgPE s.cfg) s.arg0 := by
      rw [textLength, hpe, hmod, hq, if_neg hr0.ne', if_pos rfl]
      omega
    rw [obufByte_finishEnc, if_pos hlen, encByte, textByte_pad _ _ _ (by omega)]

/-- Settles O34: RES is `textLength`, whose value is `textLength_formula`. -/
theorem encCountIsEncodedSize : Obligations.EncCountIsEncodedSize := by
  unfold Obligations.EncCountIsEncodedSize
  refine ⟨fun s t h hp => ?_, fun w pe n size hs => ?_⟩
  · rw [execEnc_res h hp, textLength_formula]
  · rw [← textLength_of_encodedSize hs, textLength_formula]

/-- A length below the thresholds of R80 has an encoded size in both modes. -/
theorem encodedSize_ne_none {w n : Nat} (hw : 3 ≤ w) (hn : n ≤ 2 ^ (w - 3) - 1) (pe : Bool) : encodedSize w pe n ≠ none := by
  cases pe with
  | false =>
    rw [encodedSize_unpadded_threshold hw, if_pos hn]
    exact Option.some_ne_none _
  | true =>
    rw [encodedSize_padded_threshold hw, if_pos (by omega)]
    exact Option.some_ne_none _

/-- Settles O35: the four ways are those of `execEnc_cases`; no overflow behind the range check by `encodedSize_ne_none`. -/
theorem encEndsOneOfFourWays : Obligations.EncEndsOneOfFourWays := by
  unfold Obligations.EncEndsOneOfFourWays
  refine ⟨fun s => ?_, fun s hwf hsize hn => ?_, by decide⟩
  · obtain ⟨t, h⟩ := exec_next .enc s
    refine ⟨t, h, ?_⟩
    rw [← stateEncodedSize]
    simp only [← slicesInRange_eq_false_iff]
    rcases execEnc_cases h with ⟨hr, rfl⟩ | ⟨hr, hs, rfl⟩ | ⟨size, hr, hs, hc, rfl⟩ | ⟨size, hr, hs, hc, rfl⟩
    · rw [if_pos hr]
      exact ⟨(endedFatal_raiseFatal s _ _).mpr rfl, fun _ _ => rfl⟩
    · simp only [hr, Bool.true_eq_false, if_false, hs]
      exact ⟨(endedFatal_raiseFatal s _ _).mpr rfl, fun _ _ => rfl⟩
    · simp only [hr, Bool.true_eq_false, if_false, hs, if_pos hc]
      exact ⟨(endedFatal_raiseFatal s _ _).mpr rfl, fun _ _ => rfl⟩
    · simp only [hr, Bool.true_eq_false, if_false, hs, if_neg (Nat.not_lt.mpr hc)]
      exact finishEnc_endedOk hs
  · exact encodedSize_ne_none (le_trans (by decide) hwf.1) (hn.trans hsize) _

/-- What ENC leaves in the registers the statements of its frame name, and that RES is at most the length of the text. -/
theorem execEnc_registers {s t : State} (h : execEnc s = .next t) :
    t.draws = s.draws ∧ t.errpos = 0 ∧ t.errbyte = 0#8 ∧ t.res ≤ textLength (cfgPE s.cfg) s.arg0 := by
  rcases execEnc_cases h with ⟨-, rfl⟩ | ⟨-, -, rfl⟩ | ⟨_, -, -, -, rfl⟩ | ⟨_, -, -, -, rfl⟩
  · exact ⟨rfl, rfl, rfl, Nat.zero_le _⟩
  · exact ⟨rfl, rfl, rfl, Nat.zero_le _⟩
  · exact ⟨rfl, rfl, rfl, Nat.zero_le _⟩
  · exact ⟨rfl, rfl, rfl, le_rfl⟩

/-- No command changes what IBUF reads as (20_memory.md R49). -/
theorem exec_keepsIbuf {i : Instr} {s t : State} (h : exec i s = .next t) (j : Nat) : ibufByte t j = ibufByte s j := by
  obtain ⟨-, -, -, hibuf, hepoch, -⟩ := exec_keepsInputs h
  exact congrFun (ibufByte_congr hibuf hepoch) j

/-- Settles O36: OBUF is the same from RES on by `execEnc_confined`, and RES is at most the length of the text. -/
theorem encFrame : Obligations.EncFrame := by
  unfold Obligations.EncFrame
  intro s t h
  obtain ⟨hdraws, herrpos, herrbyte, hres⟩ := execEnc_registers h
  have hobuf : obufSameFrom s t t.res := (execEnc_confined h).2
  exact ⟨exec_keepsInputs h, execEnc_keepsCfg h, hdraws, herrpos, herrbyte, exec_keepsIbuf h, obufSameFrom_mono hres hobuf, hobuf⟩

/-! ### PADD -/

/-- The table of R98. -/
theorem padCount_of_table {r cnt : Nat} (h : [0, 6, 4, 3, 1][r]? = some cnt) : padCount r = cnt := by
  match r, h with
  | 0, h => exact Option.some.inj h
  | 1, h => exact Option.some.inj h
  | 2, h => exact Option.some.inj h
  | 3, h => exact Option.some.inj h
  | 4, h => exact Option.some.inj h

/-- A run through the checks of PADD in a padded configuration. -/
theorem execPadd_success {s : State} (hr : outputInRange s = true) (hpe : cfgPE s.cfg = true)
    (hc : padCount (s.arg0 % 5) ≤ s.arg1) : execPadd s = .next (finishPadd s) := by
  simp [execPadd, hr, hpe, Nat.not_lt.mpr hc]

/-- Settles O37: `finishPadd` in a padded configuration, `done 0` in an unpadded one. -/
theorem paddWritesPads : Obligations.PaddWritesPads := by
  unfold Obligations.PaddWritesPads
  intro s cnt ho hcnt
  obtain rfl := padCount_of_table hcnt
  have hr : outputInRange s = true := (outputInRange_iff s).mpr ho
  refine ⟨fun hpe hc => ?_, fun hpe => ?_⟩
  · exact ⟨finishPadd s, execPadd_success hr hpe hc, (endedOk_done _ _ _).mpr rfl,
      fun k hk => (obufByte_finishPadd s k).trans (if_pos hk)⟩
  · refine ⟨s.done 0, ?_, (endedOk_done _ _ _).mpr rfl, fun _ _ => rfl⟩
    simp [exec, execPadd, hr, hpe]

/-- Settles O38: the range check comes first, then the check of ARG1 against the pad bytes. -/
theorem paddHalts : Obligations.PaddHalts := by
  unfold Obligations.PaddHalts
  intro s
  refine ⟨fun ho => ?_, fun cnt ho hpe hcnt hc => ?_⟩
  · refine ⟨s.raiseFatal .bufRange, ?_, (endedFatal_raiseFatal s _ _).mpr rfl, fun _ _ => rfl⟩
    exact if_pos ((outputInRange_eq_false_iff s).mpr ho)
  · obtain rfl := padCount_of_table hcnt
    refine ⟨s.raiseFatal .outTooSmall, ?_, (endedFatal_raiseFatal s _ _).mpr rfl, fun _ _ => rfl⟩
    simp [exec, execPadd, (outputInRange_iff s).mpr ho, hpe, hc]

/-- What PADD leaves in the registers the statements of its frame name, and that RES is at most the number of pad bytes. -/
theorem execPadd_registers {s t : State} (h : execPadd s = .next t) :
    t.draws = s.draws ∧ t.errpos = 0 ∧ t.errbyte = 0#8 ∧ t.res ≤ padCount (s.arg0 % 5) := by
  rcases execPadd_cases h with ⟨-, rfl⟩ | ⟨-, -, rfl⟩ | ⟨-, -, -, rfl⟩ | ⟨-, -, -, rfl⟩
  · exact ⟨rfl, rfl, rfl, Nat.zero_le _⟩
  · exact ⟨rfl, rfl, rfl, Nat.zero_le _⟩
  · exact ⟨rfl, rfl, rfl, Nat.zero_le _⟩
  · exact ⟨rfl, rfl, rfl, le_rfl⟩

/-- Settles O39: OBUF is the same from RES on by `execPadd_confined`, and RES is at most the number of pad bytes. -/
theorem paddFrame : Obligations.PaddFrame := by
  unfold Obligations.PaddFrame
  intro s t h
  obtain ⟨hdraws, herrpos, herrbyte, hres⟩ := execPadd_registers h
  have hobuf : obufSameFrom s t t.res := (execPadd_confined h).2
  exact ⟨exec_keepsInputs h, execPadd_keepsCfg h, hdraws, herrpos, herrbyte, exec_keepsIbuf h, obufSameFrom_mono hres hobuf,
    hobuf⟩

/-! ### Texts against each other -/

/-- Where ENC succeeds in a padded configuration, PADD on the same operands does not halt: its output is the shorter one. -/
theorem execPadd_of_execEnc {s t u : State} (hpe : cfgPE s.cfg = true) (h : execEnc s = .next t) (hp : t.phase = .idle)
    (hu : execPadd s = .next u) : u = finishPadd s := by
  obtain ⟨size, hr, hs, hc, -⟩ := execEnc_idle h hp
  have ho : outputInRange s = true := (outputInRange_iff s).mpr ((slicesInRange_iff s).mp hr).2
  have hlen : symbolCount s.arg0 + padCount (s.arg0 % 5) = size := by
    rw [← textLength_of_encodedSize hs, textLength_eq, hpe, if_pos rfl]
  rw [execPadd_success ho hpe (by omega)] at hu
  exact (Host.Outcome.next.inj hu).symm

/-- Settles O56: the padded text is `symbolCount` symbols and `padCount` pad bytes, the unpadded one the symbols alone. -/
theorem paddedTextIsTextThenPads : Obligations.PaddedTextIsTextThenPads := by
  unfold Obligations.PaddedTextIsTextThenPads
  intro s t t0 u hpe h hp h0 hp0 hu
  obtain rfl := execPadd_of_execEnc hpe h hp hu
  have hres : t.res = symbolCount s.arg0 + padCount (s.arg0 % 5) := by
    rw [execEnc_res h hp, textLength_eq, hpe, if_pos rfl]
  have hres0 : t0.res = symbolCount s.arg0 := by
    rw [execEnc_res h0 hp0, textLength_eq, cfgPE_makeCfg, if_neg (by decide), Nat.add_zero]
  have hresu : (finishPadd s).res = padCount (s.arg0 % 5) := rfl
  refine ⟨by rw [hres, hres0, hresu], fun j hj => ?_, fun k hk => ?_⟩
  · have hsym : stateSym { s with cfg := makeCfg (cfgAlpha s.cfg) none } = stateSym s :=
      funext fun v => congrArg (symEntry s.par · v) (cfgAlpha_makeCfg _ _)
    rw [execEnc_obuf h (by omega), execEnc_obuf h0 hj, encByte, encByte, hsym]
    exact textByte_pad_irrelevant _ _ _ _ (hres0 ▸ hj)
  · rw [execEnc_obuf h (by omega), execPadd_obuf hu hk]
    exact textByte_pad _ _ _ (by omega)

/-- Settles O57: the first block by `textByte_take`, the second by `textByte_add`. -/
theorem encBlocksAreIndependent : Obligations.EncBlocksAreIndependent := by
  unfold Obligations.EncBlocksAreIndependent
  intro s x y ts tx ty hxpar hypar hxcfg hycfg hmod hlen hxT hyT hs hx hy hps hpx hpy
  obtain ⟨q, hq⟩ : 5 ∣ x.arg0 := Nat.dvd_of_mod_eq_zero hmod
  rw [hq] at hlen hxT hyT
  have hsymx : stateSym x = stateSym s := by funext v; rw [stateSym, stateSym, hxpar, hxcfg]
  have hsymy : stateSym y = stateSym s := by funext v; rw [stateSym, stateSym, hypar, hycfg]
  have hress : ts.res = 8 * q + textLength (cfgPE s.cfg) y.arg0 := by rw [execEnc_res hs hps, hlen, textLength_add]
  have hresx : tx.res = 8 * q := by rw [execEnc_res hx hpx, hq, ← Nat.add_zero (5 * q), textLength_add]; rfl
  have hresy : ty.res = textLength (cfgPE s.cfg) y.arg0 := by rw [execEnc_res hy hpy, hycfg]
  refine ⟨by omega, fun j hj => ?_, fun j hj => ?_⟩
  · rw [execEnc_obuf hs (by omega), execEnc_obuf hx hj, encByte, encByte, hlen, hq, hsymx, hxcfg,
      textByte_take _ _ _ (by omega), textByte_congr _ _ _ hxT]
  · rw [execEnc_obuf hs (by omega), execEnc_obuf hy hj, encByte, encByte, hresx, hlen, hsymy, hycfg, textByte_add]
    exact (textByte_congr _ _ _ hyT j).symm

end Sys2Proof.Machine
end

section
/-! SUPPORT. The encoder run in its three stages (42_encode.md R102): each stage emits the text of the groups it takes, so that every
order of stages emits the text of R90 (00_scope.md R8). -/

namespace Sys2Proof.Machine

/-- The text of the `n` bytes from index `i` on, as `textByte` has it (R90). -/
def textFrom (sym : Symbol → Byte) (pad : Option Byte) (T : Nat → Byte) (i n : Nat) : List Byte :=
  (List.range (textLength pad.isSome n)).map (textByte sym (pad.getD 0#8) (fun d => T (i + d)) n)

section
variable (T : Nat → Byte) (i : Nat)

/-! ### The values of the stages -/

/-- Five bytes in a row are the shifts and ORs of the scalar stage (R92). -/
theorem append_eq_shifts (b0 b1 b2 b3 b4 : Byte) :
    b0 ++ b1 ++ b2 ++ b3 ++ b4 = (b0.setWidth 40 <<< 32) ||| (b1.setWidth 40 <<< 24) ||| (b2.setWidth 40 <<< 16)
      ||| (b3.setWidth 40 <<< 8) ||| b4.setWidth 40 := by
  apply BitVec.eq_of_getLsbD_eq
  intro j hj
  simp only [BitVec.getLsbD_append, BitVec.getLsbD_or, BitVec.getLsbD_shiftLeft, BitVec.getLsbD_setWidth]
  interval_cases j <;> simp

/-- The value of the scalar stage is the value of its group (R92). -/
theorem scalarValue_eq : scalarValue T i = groupValue (fun d => T (i + d)) 5 0 := by
  rw [scalarValue, groupValue, append_eq_shifts]
  rfl

/-- The value of the remainder stage is the value of the group its bytes make, the missing ones zero (R95). -/
theorem remainderValue_eq {r : Nat} (hr : r < 5) : remainderValue T i r = groupValue (fun d => T (i + d)) r 0 := by
  rw [groupValue, append_eq_shifts]
  interval_cases r <;> simp [remainderValue, groupByte]

/-- A wide word is a group followed by three more bytes (R102). -/
theorem wideWord_toNat :
    ∃ rest, rest < 2 ^ 24 ∧ (wideWord T i).toNat = (groupValue (fun d => T (i + d)) 5 0).toNat * 2 ^ 24 + rest := by
  refine ⟨(T (i + 5) ++ T (i + 6) ++ T (i + 7)).toNat, BitVec.isLt _, ?_⟩
  rw [groupValue_full (by decide)]
  simp only [wideWord, append_toNat, Nat.mul_zero, Nat.zero_add, Nat.add_zero]
  ring

/-- A symbol taken from a wide word is the one taken from its group: the shift by 24 more bits drops the bytes behind it (R93). -/
theorem wideWord_symbol {k : Nat} (hk : k < 8) :
    (wideWord T i >>> (59 - 5 * k)).setWidth 5 = symbolOf (groupValue (fun d => T (i + d)) 5 0) k := by
  obtain ⟨rest, hrest, hword⟩ := wideWord_toNat T i
  have hshift : 59 - 5 * k = 24 + (35 - 5 * k) := by omega
  apply BitVec.eq_of_toNat_eq
  rw [symbolOf_toNat, BitVec.toNat_setWidth, BitVec.toNat_ushiftRight, Nat.shiftRight_eq_div_pow, hword, hshift, pow_add,
    ← Nat.div_div_eq_div_mul, Nat.mul_comm, Nat.mul_add_div (by decide), Nat.div_eq_of_lt hrest, Nat.add_zero]

end

/-! ### What the stages emit -/

section
variable (sym : Symbol → Byte) (pad : Option Byte) (T : Nat → Byte) (i : Nat)

theorem wideSymbols_eq_scalarSymbols : wideSymbols sym T i = scalarSymbols sym T i := by
  refine List.map_congr_left fun k hk => ?_
  rw [wideWord_symbol T i (List.mem_range.mp hk), scalarValue_eq, BitVec.setWidth_ushiftRight_eq_extractLsb, symbolOf]

/-- The scalar stage emits the first group of the text. -/
theorem textFrom_five_le {n : Nat} (hn : 5 ≤ n) :
    textFrom sym pad T i n = scalarSymbols sym T i ++ textFrom sym pad T (i + 5) (n - 5) := by
  obtain ⟨m, rfl⟩ := Nat.exists_eq_add_of_le hn
  rw [textFrom, textFrom, scalarSymbols, Nat.add_sub_cancel_left, textLength_add 1 m, List.range_add, List.map_append, List.map_map]
  refine congrArg₂ (· ++ ·) (List.map_congr_left fun k hk => ?_) (List.map_congr_left fun j _ => ?_)
  · have hk : k < 8 := List.mem_range.mp hk
    have hsym : 8 * 0 + k < symbolCount (5 * 1 + m) := by rw [symbolCount_add]; omega
    have htext := textByte_symbol sym (pad.getD 0#8) (fun d => T (i + d)) hk hsym
    rw [Nat.mul_zero, Nat.zero_add, groupValue_take _ (Nat.le_add_right 5 m) (by decide), ← scalarValue_eq] at htext
    rw [htext, symbolOf, BitVec.setWidth_ushiftRight_eq_extractLsb]
  · simp only [Function.comp_apply, textByte_add sym _ _ 1 m j, Nat.add_assoc]

/-- The batched stage emits the first four groups of the text. -/
theorem textFrom_twenty_le {n : Nat} (hn : 20 ≤ n) :
    textFrom sym pad T i n = batchSymbols sym T i ++ textFrom sym pad T (i + 20) (n - 20) := by
  rw [textFrom_five_le _ _ _ _ (by omega), textFrom_five_le _ _ _ _ (by omega), textFrom_five_le _ _ _ _ (by omega),
    textFrom_five_le _ _ _ _ (by omega), batchSymbols]
  simp only [wideSymbols_eq_scalarSymbols, List.append_assoc, Nat.add_assoc, Nat.sub_sub, Nat.reduceAdd]

/-- The remainder stage emits the text of the last bytes (R96 to R99). -/
theorem remainderStage_eq {r : Nat} (hr : r < 5) : remainderStage sym pad T i r = textFrom sym pad T i r := by
  have hcount : symbolCount r = remainderSymbols r := by
    rw [symbolCount, Nat.div_eq_of_lt hr, Nat.mod_eq_of_lt hr, Nat.mul_zero, Nat.zero_add]
  have hle : remainderSymbols r ≤ 8 := by rw [remainderSymbols]; omega
  rw [textFrom, textLength_eq, hcount, Nat.mod_eq_of_lt hr, List.range_add, List.map_append, List.map_map, remainderStage.eq_def]
  refine congrArg₂ (· ++ ·) (List.map_congr_left fun k hk => ?_) ?_
  · have hk : k < remainderSymbols r := List.mem_range.mp hk
    have hsym : 8 * 0 + k < symbolCount r := by omega
    have htext := textByte_symbol sym (pad.getD 0#8) (fun d => T (i + d)) (hk.trans_le hle) hsym
    rw [Nat.mul_zero, Nat.zero_add, ← remainderValue_eq T i hr] at htext
    rw [htext, symbolOf, BitVec.setWidth_ushiftRight_eq_extractLsb]
  · cases pad with
    | none => rfl
    | some p =>
      have hpads : ∀ k, textByte sym p (fun d => T (i + d)) r (remainderSymbols r + k) = p := fun k =>
        textByte_pad _ _ _ (hcount.le.trans (Nat.le_add_right _ _))
      simp [Function.comp_def, hpads, List.map_const']

/-- The stages emit the text of what is left, whichever of them run; each takes at least 5 bytes, so the fuel suffices. -/
theorem encoderStages_eq (batch n : Nat) {fuel : Nat} (hfuel : n - i < 5 * fuel + 5) :
    encoderStages batch sym pad T n fuel i = textFrom sym pad T i (n - i) := by
  induction fuel generalizing i with
  | zero => exact remainderStage_eq sym pad T i hfuel
  | succ fuel ih =>
    rw [encoderStages]
    split_ifs with hbatch hscalar
    · rw [ih (i + 20) (by omega), textFrom_twenty_le sym pad T i (n := n - i) (by omega), Nat.sub_sub]
    · rw [ih (i + 5) (by omega), textFrom_five_le sym pad T i hscalar, Nat.sub_sub]
    · exact remainderStage_eq sym pad T i (Nat.lt_of_not_le hscalar)

end

/-- Settles O58: the stages from index 0 on, by `encoderStages_eq`. -/
theorem stagedEncoderGivesSameText : Obligations.StagedEncoderGivesSameText := by
  unfold Obligations.StagedEncoderGivesSameText
  intro batch sym pad T n
  rw [stagedText, encoderStages_eq sym pad T 0 batch n (by omega), textFrom, Nat.sub_zero]
  simp only [Nat.zero_add]

end Sys2Proof.Machine
end

section
/-! SUPPORT. DEC (43_decode.md R107 to R128): where it stops consuming, how each of its endings follows from the text, and the bytes
it leaves. -/

namespace Sys2Proof.Machine

/-! ### Where consumption ends -/

section
variable {s : State} {c ns : Nat}

theorem decConsumed_eq (h : consumesTo s c ns) : decConsumed s = 8 * c + ns := by
  obtain ⟨rfl, rfl⟩ := (consumesTo_iff s c ns).mp h
  rfl

/-- The count of a text whose tail has a symbol count the encoder leaves (R118, R121). -/
theorem decCount_eq (h : consumesTo s c ns) (hns : ns ≠ 1 ∧ ns ≠ 3 ∧ ns ≠ 6) : decCount s = 5 * c + 5 * ns / 8 := by
  obtain ⟨rfl, rfl⟩ := (consumesTo_iff s c ns).mp h
  rw [decCount, tailBytes_eq (decTailSymbols_le s) ((badSymbolCount_eq_false _).mpr hns)]

/-- No position is reported where every consumed byte is a symbol (R111). -/
theorem decInvalid_eq_none (h : consumesTo s c ns) (hall : allSymbols s (8 * c + ns)) : decInvalid s = none := by
  rw [decInvalid, decConsumed_eq h]
  exact (firstInvalid_eq_none _ _ _).mpr hall

/-- The position reported is the lowest consumed one that is no symbol (R111). -/
theorem decInvalid_eq_some {pos : Nat} (h : consumesTo s c ns) (hpos : pos < 8 * c + ns) (hall : allSymbols s pos)
    (hbad : invLookup s.par (cfgAlpha s.cfg) (ibufByte s pos) = none) : decInvalid s = some pos := by
  rw [decInvalid, decConsumed_eq h]
  exact (firstInvalid_eq_some _ _ _ _).mpr ⟨hpos, hbad, hall⟩

/-! ### The endings of DEC -/

theorem execDec_bufRange (hr : slicesInRange s = false) : execDec s = .next (s.raiseFatal .bufRange) := if_pos hr

theorem execDec_overflow (hr : slicesInRange s = true) (hs : stateDecodedSize s = none) :
    execDec s = .next (s.raiseFatal .overflow) := by
  simp [execDec, hr, hs]

theorem execDec_outTooSmall {size : Nat} (hr : slicesInRange s = true) (hs : stateDecodedSize s = some size)
    (hc : s.arg1 < size) : execDec s = .next (s.raiseFatal .outTooSmall) := by
  simp [execDec, hr, hs, hc]

/-- DEC of a length no encoding has (R109). -/
theorem execDec_badLength {size : Nat} (hr : slicesInRange s = true) (hs : stateDecodedSize s = some size)
    (hc : size ≤ s.arg1) (hb : badSymbolCount (s.arg0 % 8) = true) : execDec s = .next (s.raiseError .errLength 0 0#8) := by
  simp [execDec, hr, hs, Nat.not_lt.mpr hc, hb]

theorem execDec_badLength_of_contract (hc : decContract s) (hm : s.arg0 % 8 = 1 ∨ s.arg0 % 8 = 3 ∨ s.arg0 % 8 = 6) :
    execDec s = .next (s.raiseError .errLength 0 0#8) := by
  obtain ⟨hr, size, hs, hle⟩ := (decContract_iff s).mp hc
  exact execDec_badLength hr hs hle ((badSymbolCount_eq_true _).mpr hm)

/-- DEC under its contract, of a length some encoding has, consumes the text (R123 step 5). -/
theorem execDec_of_contract (hc : decContract s) (hm : s.arg0 % 8 ≠ 1 ∧ s.arg0 % 8 ≠ 3 ∧ s.arg0 % 8 ≠ 6) :
    execDec s = .next (consumeText s) := by
  obtain ⟨hr, size, hs, hle⟩ := (decContract_iff s).mp hc
  exact execDec_consumes hr hs hle ((badSymbolCount_eq_false _).mpr hm)

theorem consumeText_invalidByte {pos : Nat} (hi : decInvalid s = some pos) :
    consumeText s = (clobberOutput s).raiseError .errByte pos (ibufByte s pos) := by
  rw [consumeText, hi]

theorem consumeText_badTail (hi : decInvalid s = none) (ht : badSymbolCount (decTailSymbols s) = true) :
    consumeText s = (clobberOutput s).raiseError .errLength 0 0#8 := by
  simp only [consumeText, hi, if_pos ht]

theorem consumeText_overrun (hi : decInvalid s = none) (ht : badSymbolCount (decTailSymbols s) = false)
    (hn : s.arg1 < decCount s) : consumeText s = (clobberOutput s).raiseFatal .outOverrun := by
  simp only [consumeText, hi, ht, Bool.false_eq_true, if_false, if_pos hn]

theorem consumeText_success (hi : decInvalid s = none) (ht : badSymbolCount (decTailSymbols s) = false)
    (hn : decCount s ≤ s.arg1) : consumeText s = finishDec s := by
  simp only [consumeText, hi, ht, Bool.false_eq_true, if_false, if_neg (Nat.not_lt.mpr hn)]

theorem finishDec_endedOk (s : State) : endedOk (finishDec s) (decCount s) := by
  rw [finishDec]
  split
  · exact (endedOk_done _ _ _).mpr (decCount_empty ‹_›).symm
  · exact (endedOk_done _ _ _).mpr rfl

/-- The bytes a successful DEC leaves below its count; the empty text has none (R125 (a)). -/
theorem obufByte_finishDec_lt {j : Nat} (hj : j < decCount s) : obufByte (finishDec s) j = decByte s j := by
  have h0 : s.arg0 ≠ 0 := fun h => absurd hj (by rw [decCount_empty h]; exact Nat.not_lt_zero j)
  rw [obufByte_finishDec h0, if_pos hj]

/-- The way of a text whose checks pass (R107). -/
theorem execDec_finishes (hc : decContract s) (hm : s.arg0 % 8 ≠ 1 ∧ s.arg0 % 8 ≠ 3 ∧ s.arg0 % 8 ≠ 6)
    (h : consumesTo s c ns) (hall : allSymbols s (8 * c + ns)) (hns : ns ≠ 1 ∧ ns ≠ 3 ∧ ns ≠ 6)
    (hn : 5 * c + 5 * ns / 8 ≤ s.arg1) : execDec s = .next (finishDec s) := by
  have hcount := decCount_eq h hns
  obtain ⟨-, rfl⟩ := (consumesTo_iff s c ns).mp h
  rw [execDec_of_contract hc hm, consumeText_success (decInvalid_eq_none h hall) ((badSymbolCount_eq_false _).mpr hns)
    (hcount.trans_le hn)]

end

/-- Settles O41: the length check comes before the text is looked at. -/
theorem decRejectsLength : Obligations.DecRejectsLength := by
  unfold Obligations.DecRejectsLength
  intro s hc hm
  exact ⟨_, execDec_badLength_of_contract hc hm, endedError_raiseError s _ _ _, fun _ _ => rfl⟩

/-- Settles O42: the position is `decInvalid`, and its byte ends the consumption. -/
theorem decReportsInvalidByte : Obligations.DecReportsInvalidByte := by
  unfold Obligations.DecReportsInvalidByte
  intro s c ns pos hc hm h hpos hall hbad
  refine ⟨_, execDec_of_contract hc hm, ?_⟩
  rw [consumeText_invalidByte (decInvalid_eq_some h hpos hall hbad)]
  exact endedError_raiseError _ _ _ _

/-- Settles O43: every consumed byte is a symbol, and the tail's count is one no encoding leaves. -/
theorem decRejectsTailCount : Obligations.DecRejectsTailCount := by
  unfold Obligations.DecRejectsTailCount
  intro s c ns hc hm h hall hns
  have hi := decInvalid_eq_none h hall
  obtain ⟨-, rfl⟩ := (consumesTo_iff s c ns).mp h
  refine ⟨_, execDec_of_contract hc hm, ?_⟩
  rw [consumeText_badTail hi ((badSymbolCount_eq_true _).mpr hns)]
  exact endedError_raiseError _ _ _ _

/-! ### The capacity -/

/-- Where `decoded_size` fits, so do the decoded bytes, unless the configuration is padded and the length no multiple of 8 (R124). -/
theorem decCount_le_arg1 {s : State} (hc : decContract s) (h : cfgPE s.cfg = true → s.arg0 % 8 = 0) :
    decCount s ≤ s.arg1 := by
  obtain ⟨-, -, size, hs, hle⟩ := hc
  have hcount := decCount_le s
  have hsize := decodedSize_eq hs
  cases hpe : cfgPE s.cfg with
  | false =>
    rw [hpe, if_neg Bool.false_ne_true] at hsize
    omega
  | true =>
    have hmod := h hpe
    rw [hpe, if_pos rfl] at hsize
    omega

/-- Settles O44: the count is above ARG1, which `decCount_le_arg1` allows in the one case only. -/
theorem decOverrunHalts : Obligations.DecOverrunHalts := by
  unfold Obligations.DecOverrunHalts
  intro s c ns hc hm h hall hns hn
  have hi := decInvalid_eq_none h hall
  rw [← decCount_eq h hns] at hn
  obtain ⟨-, rfl⟩ := (consumesTo_iff s c ns).mp h
  have hcase : ¬ (cfgPE s.cfg = true → s.arg0 % 8 = 0) := fun hfit => Nat.not_lt.mpr (decCount_le_arg1 hc hfit) hn
  refine ⟨⟨_, execDec_of_contract hc hm, ?_⟩, Classical.not_imp.mp hcase⟩
  rw [consumeText_overrun hi ((badSymbolCount_eq_false _).mpr hns) hn]
  exact (endedFatal_raiseFatal _ _ _).mpr rfl

/-- Settles O45: the checks of the contract in the order of R123. -/
theorem decContractBreachHalts : Obligations.DecContractBreachHalts := by
  unfold Obligations.DecContractBreachHalts
  intro s
  have hhalt : ∀ cause, execDec s = .next (s.raiseFatal cause) →
      ∃ t, exec .dec s = .next t ∧ endedFatal t cause ∧ obufSameFrom s t 0 := fun cause h =>
    ⟨_, h, (endedFatal_raiseFatal s _ _).mpr rfl, fun _ _ => rfl⟩
  exact ⟨fun hr => hhalt _ (execDec_bufRange ((slicesInRange_eq_false_iff s).mpr hr)),
    fun h0 h1 hs => hhalt _ (execDec_overflow ((slicesInRange_iff s).mpr ⟨h0, h1⟩) hs),
    fun size h0 h1 hs hc => hhalt _ (execDec_outTooSmall ((slicesInRange_iff s).mpr ⟨h0, h1⟩) hs hc)⟩

/-- Where the bytes of a text fit, its consumption ends in no fault (R128). -/
theorem consumeText_idle {s : State} (hn : decCount s ≤ s.arg1) :
    (consumeText s).phase = .idle ∧
      ((consumeText s).code = .ok ∨ (consumeText s).code = .errLength ∨ (consumeText s).code = .errByte) := by
  rcases consumeText_cases s with ⟨pos, -, e⟩ | ⟨-, -, e⟩ | ⟨-, -, hlt, -⟩ | ⟨-, -, -, e⟩
  · rw [e]; exact ⟨rfl, .inr (.inr rfl)⟩
  · rw [e]; exact ⟨rfl, .inr (.inl rfl)⟩
  · exact absurd hn (Nat.not_le.mpr hlt)
  · obtain ⟨hphase, hcode, -⟩ := finishDec_endedOk s
    rw [e]; exact ⟨hphase, .inl hcode⟩

/-- Settles O47: a bad length is ERR_LENGTH; else the bytes fit by `decCount_le_arg1` or by the room asked for, and no fault is
left. -/
theorem decTotality : Obligations.DecTotality := by
  unfold Obligations.DecTotality
  intro s hc hroom
  by_cases hm : s.arg0 % 8 = 1 ∨ s.arg0 % 8 = 3 ∨ s.arg0 % 8 = 6
  · exact ⟨_, execDec_badLength_of_contract hc hm, rfl, .inr (.inl rfl)⟩
  · refine ⟨_, execDec_of_contract hc (by omega), consumeText_idle ?_⟩
    by_cases hfit : cfgPE s.cfg = true → s.arg0 % 8 = 0
    · exact decCount_le_arg1 hc hfit
    · obtain ⟨hpe, hmod⟩ := Classical.not_imp.mp hfit
      have hcount := decCount_le s
      have harg1 := hroom hpe hmod
      omega

/-! ### The frame -/

/-- The empty text ends at once with no byte (R107; log 9). -/
theorem consumeText_empty {s : State} (h0 : s.arg0 = 0) : consumeText s = s.done 0 := by
  have hconsumed : decConsumed s = 0 := Nat.le_zero.mp (h0 ▸ consumedLength_le _ _ _)
  have htail : decTailSymbols s = 0 := Nat.eq_zero_of_le_zero ((tailStop_le _ _ _).trans_eq (if_pos h0))
  have hi : decInvalid s = none := by
    rw [decInvalid, hconsumed]
    rfl
  rw [consumeText_success hi (by rw [htail]; rfl) (by rw [decCount_empty h0]; exact Nat.zero_le _), finishDec, if_pos h0]

/-- The one fault of the consumption (R124). -/
theorem consumeText_halted {s : State} {cause : FCause} (h : (consumeText s).phase = .halted cause) : cause = .outOverrun := by
  rcases consumeText_cases s with ⟨pos, -, e⟩ | ⟨-, -, e⟩ | ⟨-, -, -, e⟩ | ⟨-, -, -, e⟩ <;> rw [e] at h
  · cases h
  · cases h
  · exact (Phase.halted.inj h).symm
  · cases (finishDec_endedOk s).1.symm.trans h

/-- DEC leaves OBUF as it was, or it consumes the text (R123 steps 1 to 4). -/
theorem execDec_keepsObuf_or {s t : State} (h : execDec s = .next t) :
    obufByte t = obufByte s ∨ (badSymbolCount (s.arg0 % 8) = false ∧ t = consumeText s) := by
  rcases execDec_cases h with ⟨-, rfl⟩ | ⟨-, -, rfl⟩ | ⟨_, -, -, -, rfl⟩ | ⟨_, -, -, -, -, rfl⟩ |
    ⟨_, -, -, -, hb, rfl⟩
  · exact .inl rfl
  · exact .inl rfl
  · exact .inl rfl
  · exact .inl rfl
  · exact .inr ⟨hb, rfl⟩

/-- Settles O46: the checks before the text is consumed write nothing, and the consumption writes below ARG1 only. -/
theorem decFrame : Obligations.DecFrame := by
  unfold Obligations.DecFrame
  intro s t h
  refine ⟨exec_keepsInputs h, execDec_keepsCfg h, exec_keepsIbuf h, execDec_confined h, ?_⟩
  rcases execDec_keepsObuf_or h with hobuf | ⟨hb, rfl⟩
  · have hsame : obufSameFrom s t 0 := fun j _ => congrFun hobuf j
    exact ⟨fun _ => hsame, fun _ _ _ => hsame, fun _ _ => hsame⟩
  · refine ⟨fun h0 _ _ => ?_, fun cause hp hcause => absurd (consumeText_halted hp) hcause, fun _ hm => ?_⟩
    · rw [consumeText_empty h0, obufByte_done]
    · exact absurd ((badSymbolCount_eq_true _).mpr hm) (ne_true_of_eq_false hb)

/-! ### The bytes -/

/-- A chunk with `n` consumed symbols as the sum the statements write (R112, R116). -/
theorem chunkValue_eq_sum {s : State} {len j n : Nat} (hn : n ≤ 8) (hlen : ∀ k, k < 8 → (8 * j + k < len ↔ k < n)) :
    (chunkValue (stateInv s) (ibufByte s) len j).toNat =
      ((List.range n).map fun k => textSymbol s (8 * j + k) * 2 ^ (35 - 5 * k)).sum := by
  have hsym : ∀ k, k < 8 → (symbolValue (stateInv s) (ibufByte s) len (8 * j + k)).toNat =
      if k < n then textSymbol s (8 * j + k) else 0 := fun k hk => by
    rw [symbolValue_toNat, if_congr (hlen k hk) rfl rfl]
  rw [chunkValue_toNat, sum_chunkSymbols (fun k => textSymbol s (8 * j + k)) n hn, ← hsym 1 (by decide), ← hsym 2 (by decide),
    ← hsym 3 (by decide), ← hsym 4 (by decide), ← hsym 5 (by decide), ← hsym 6 (by decide), ← hsym 7 (by decide),
    ← hsym 0 (by decide)]
  rfl

/-- Byte `i` of chunk `j` of the decoded data (R112). -/
theorem decodedByte_chunk (inv : Byte → Option Symbol) (T : Nat → Byte) (len : Nat) {j i : Nat} (hi : i < 5) :
    decodedByte inv T len (5 * j + i) = byteOf (chunkValue inv T len j) i := by
  rw [decodedByte, Nat.mul_add_div (by decide), Nat.div_eq_of_lt hi, Nat.mul_add_mod, Nat.mod_eq_of_lt hi, Nat.add_zero]

/-- Settles O40: the bytes are those of the chunks by `decodedByte_chunk`, the chunks are sums by `chunkValue_eq_sum`. -/
theorem decWritesDecodedBytes : Obligations.DecWritesDecodedBytes := by
  unfold Obligations.DecWritesDecodedBytes
  intro s c ns hc hm h hall hns hn
  have hcount := decCount_eq h hns
  have hlen := decConsumed_eq h
  have hns8 : ns ≤ 8 := ((consumesTo_iff s c ns).mp h).2 ▸ decTailSymbols_le s
  have hbyte : ∀ j i n, i < 5 → n ≤ 8 → 5 * j + i < decCount s → (∀ k, k < 8 → (8 * j + k < decConsumed s ↔ k < n)) →
      (obufByte (finishDec s) (5 * j + i)).toNat =
        ((List.range n).map fun k => textSymbol s (8 * j + k) * 2 ^ (35 - 5 * k)).sum / 2 ^ (32 - 8 * i) % 256 := by
    intro j i n hi hn8 hj hk
    rw [obufByte_finishDec_lt hj, decByte, decodedByte_chunk _ _ _ hi, byteOf_toNat, chunkValue_eq_sum hn8 hk]
  refine ⟨finishDec s, execDec_finishes hc hm h hall hns hn, hcount ▸ finishDec_endedOk s, fun j i hj hi => ?_, fun i hi => ?_⟩
  · exact hbyte j i 8 hi le_rfl (by omega) (by omega)
  · exact hbyte c i ns (by omega) hns8 (by omega) (by omega)

end Sys2Proof.Machine
end

section
/-! SUPPORT. The decoder run in its three stages (43_decode.md R126): what each stage leaves at every index, so that together they
leave the bytes of R112 and R116 (00_scope.md R8). -/

namespace Sys2Proof.Machine

section
variable (slack : Nat → BitVec 24) (inv : Byte → Option Symbol) (T : Nat → Byte) (len : Nat) (m : Memory)

/-- The first five of the eight bytes of a batched group are the group's bytes (R126). -/
theorem wideByte_eq_byteOf (V : Group) (w : BitVec 24) {i : Nat} (hi : i < 5) : wideByte V w i = byteOf V i := by
  have hstart : 56 - 8 * i = 24 + (32 - 8 * i) := by omega
  apply BitVec.eq_of_getLsbD_eq
  intro k hk
  rw [wideByte, byteOf, BitVec.getLsbD_extractLsb', BitVec.getLsbD_extractLsb', BitVec.getLsbD_append, hstart, if_neg (by omega),
    Nat.add_assoc, Nat.add_sub_cancel_left]

/-- The byte a stage writes for chunk `j` at an index of the chunk is the decoded byte of that index (R112). -/
theorem byteOf_eq_decodedByte {j a : Nat} (h : 5 * j ≤ a) (h' : a < 5 * j + 5) :
    byteOf (chunkValue inv T len j) (a - 5 * j) = decodedByte inv T len a := by
  rw [← decodedByte_chunk inv T len (by omega), Nat.add_sub_cancel' h]

/-- The batched stage leaves the decoded bytes of its chunks: the slack of each group is overwritten by the next (R126). -/
theorem read_batchedDecode_lt {n a : Nat} (h : a < 5 * n) :
    Memory.read (batchedDecode slack inv T len m n) a = some (decodedByte inv T len a) := by
  induction n with
  | zero => omega
  | succ n ih =>
    rw [batchedDecode, Memory.read_writeRange]
    split
    · rw [wideByte_eq_byteOf _ _ (by omega), byteOf_eq_decodedByte _ _ _ (by omega) (by omega)]
    · exact ih (by omega)

/-- The batched stage writes nothing behind the slack of its last group (20_memory.md R49). -/
theorem read_batchedDecode_of_le {n a : Nat} (h : n = 0 ∨ 5 * (n - 1) + 8 ≤ a) :
    Memory.read (batchedDecode slack inv T len m n) a = Memory.read m a := by
  induction n with
  | zero => rfl
  | succ n ih => rw [batchedDecode, Memory.read_writeRange, if_neg (by omega), ih (by omega)]

/-- The scalar stage writes the decoded bytes of its chunks and nothing else (R126). -/
theorem read_scalarDecode (j0 count a : Nat) :
    Memory.read (scalarDecode inv T len j0 m count) a =
      if 5 * j0 ≤ a ∧ a < 5 * (j0 + count) then some (decodedByte inv T len a) else Memory.read m a := by
  induction count with
  | zero => rw [scalarDecode, if_neg (by omega)]
  | succ k ih =>
    rw [scalarDecode, Memory.read_writeRange, ih]
    by_cases hnew : 5 * (j0 + k) ≤ a ∧ a < 5 * (j0 + k) + 5
    · rw [if_pos hnew, if_pos (by omega), byteOf_eq_decodedByte _ _ _ hnew.1 hnew.2]
    · rw [if_neg hnew]
      exact if_congr (by omega) rfl rfl

/-- What the three stages leave at an index, by the last stage that writes it (R126). -/
theorem read_stagedDecode {batches c nb : Nat} (hb : 4 * batches ≤ c) (hnb : nb ≤ 5) (a : Nat) :
    Memory.read (stagedDecode batches slack inv T len c nb m) a =
      if 5 * (4 * batches) ≤ a ∧ a < 5 * c + nb then some (decodedByte inv T len a)
      else Memory.read (batchedDecode slack inv T len m (4 * batches)) a := by
  rw [stagedDecode, Memory.read_writeRange, read_scalarDecode, Nat.add_sub_cancel' hb]
  by_cases htail : 5 * c ≤ a ∧ a < 5 * c + nb
  · rw [if_pos htail, if_pos (by omega), byteOf_eq_decodedByte _ _ _ htail.1 (by omega)]
  · rw [if_neg htail]
    exact if_congr (by omega) rfl rfl

end

/-- Settles O59: below the count an index belongs to the batched stage or to a later one; from `cap` on no stage writes. -/
theorem stagedDecoderGivesSameBytes : Obligations.StagedDecoderGivesSameBytes := by
  unfold Obligations.StagedDecoderGivesSameBytes
  intro batches c nb cap len slack inv T m hb hnb hcap hslack
  refine ⟨fun j hj => ?_, fun j hj => ?_⟩
  · rw [read_stagedDecode slack inv T len m hb hnb]
    split
    · rfl
    · exact read_batchedDecode_lt slack inv T len m (by omega)
  · rw [read_stagedDecode slack inv T len m hb hnb, if_neg (by omega)]
    exact read_batchedDecode_of_le slack inv T len m (by omega)

end Sys2Proof.Machine
end

section
/-! SUPPORT. DEC on a block with another IBUF that agrees with the first up to the point where consumption ends (43_decode.md R117):
it ends in the same state but for IBUF. -/

namespace Sys2Proof.Machine

/-- The decoded data depend on the consumed bytes only (R112, R116). -/
theorem decodedByte_congr (inv : Byte → Option Symbol) {T T' : Nat → Byte} {len : Nat} (h : ∀ i, i < len → T i = T' i) :
    decodedByte inv T len = decodedByte inv T' len := by
  have hsym : symbolValue inv T len = symbolValue inv T' len :=
    funext fun i => if_ctx_congr Iff.rfl (fun hi => by rw [h i hi]) fun _ => rfl
  funext j
  rw [decodedByte, decodedByte, chunkValue, chunkValue, hsym]

/-- The position reported depends on the consumed bytes only (R111). -/
theorem firstInvalid_congr (inv : Byte → Option Symbol) {T T' : Nat → Byte} {len : Nat} (h : ∀ i, i < len → T i = T' i) :
    firstInvalid inv T len = firstInvalid inv T' len := by
  cases hpos : firstInvalid inv T' len with
  | none =>
    rw [firstInvalid_eq_none] at hpos ⊢
    exact fun i hi => h i hi ▸ hpos i hi
  | some pos =>
    rw [firstInvalid_eq_some] at hpos ⊢
    obtain ⟨hlt, hbad, hall⟩ := hpos
    exact ⟨hlt, h pos hlt ▸ hbad, fun i hi => h i (hi.trans hlt) ▸ hall i hi⟩

/-- The block with another IBUF. -/
def State.withIbuf (s : State) (m : Memory) : State := { s with ibuf := m }

section
variable {s : State} {m : Memory} {c ns : Nat}

/-- Up to the first pad byte the two texts are consumed alike (R115). -/
theorem consumesTo_withIbuf (h : consumesTo s c ns) (hT : ∀ i, i ≤ 8 * c + ns → ibufByte (s.withIbuf m) i = ibufByte s i) :
    consumesTo (s.withIbuf m) c ns := by
  obtain ⟨tail, hlen, hle, hpos, hns, hbefore, hstop⟩ := h
  refine ⟨tail, hlen, hle, hpos, hns, fun k hk => ?_, fun hlt => ?_⟩
  · rw [hT _ (by omega)]
    exact hbefore k hk
  · rw [hT _ le_rfl]
    exact hstop hlt

/-- The successful end is the same but for IBUF where the bytes are. -/
theorem finishDec_withIbuf (hcount : decCount (s.withIbuf m) = decCount s) (hbyte : decByte (s.withIbuf m) = decByte s) :
    finishDec (s.withIbuf m) = (finishDec s).withIbuf m := by
  rw [finishDec, finishDec, hcount, hbyte]
  by_cases h0 : s.arg0 = 0
  · rw [if_pos h0, if_pos (by exact h0)]
    rfl
  · rw [if_neg h0, if_neg (by exact h0)]
    rfl

/-- The consumption ends in the same state but for IBUF (R117). -/
theorem consumeText_withIbuf (h : consumesTo s c ns)
    (hT : ∀ i, i ≤ 8 * c + ns → ibufByte (s.withIbuf m) i = ibufByte s i) :
    consumeText (s.withIbuf m) = (consumeText s).withIbuf m := by
  have h' := consumesTo_withIbuf h hT
  have hlen : decConsumed (s.withIbuf m) = decConsumed s := (decConsumed_eq h').trans (decConsumed_eq h).symm
  have htail : decTailSymbols (s.withIbuf m) = decTailSymbols s :=
    ((consumesTo_iff _ c ns).mp h').2.trans ((consumesTo_iff s c ns).mp h).2.symm
  have hagree : ∀ i, i < decConsumed s → ibufByte (s.withIbuf m) i = ibufByte s i := fun i hi =>
    hT i (by rw [decConsumed_eq h] at hi; omega)
  have hi : decInvalid (s.withIbuf m) = decInvalid s := by
    rw [decInvalid, decInvalid, hlen]
    exact firstInvalid_congr (stateInv s) hagree
  have hcount : decCount (s.withIbuf m) = decCount s := by
    rw [decCount, decCount, htail]
    rfl
  have hbyte : decByte (s.withIbuf m) = decByte s := by
    funext j
    rw [decByte, decByte, hlen]
    exact congrFun (decodedByte_congr (stateInv s) hagree) j
  rcases consumeText_cases s with ⟨pos, hs, e⟩ | ⟨hs, hb, e⟩ | ⟨hs, hb, hn, e⟩ | ⟨hs, hb, hn, e⟩ <;> rw [e]
  · obtain ⟨hpos, -, -⟩ := (firstInvalid_eq_some _ _ _ _).mp hs
    rw [consumeText_invalidByte (hi.trans hs), hagree pos hpos]
    rfl
  · rw [consumeText_badTail (hi.trans hs) (htail ▸ hb)]
    rfl
  · rw [consumeText_overrun (hi.trans hs) (htail ▸ hb) (hcount.trans_gt hn)]
    rfl
  · rw [consumeText_success (hi.trans hs) (htail ▸ hb) (hcount.trans_le hn), finishDec_withIbuf hcount hbyte]

end

/-- Settles O49: the checks before the consumption do not read IBUF, and the consumption is `consumeText_withIbuf`. -/
theorem decIgnoresBytesAfterPad : Obligations.DecIgnoresBytesAfterPad := by
  unfold Obligations.DecIgnoresBytesAfterPad
  intro s t m c ns h _ hT ht
  change execDec (s.withIbuf m) = .next (t.withIbuf m)
  rcases execDec_cases ht with ⟨hr, rfl⟩ | ⟨hr, hs, rfl⟩ | ⟨size, hr, hs, hc, rfl⟩ | ⟨size, hr, hs, hc, hb, rfl⟩ |
    ⟨size, hr, hs, hc, hb, rfl⟩
  · exact execDec_bufRange (s := s.withIbuf m) hr
  · exact execDec_overflow (s := s.withIbuf m) hr hs
  · exact execDec_outTooSmall (s := s.withIbuf m) hr hs hc
  · exact execDec_badLength (s := s.withIbuf m) hr hs hc hb
  · rw [← consumeText_withIbuf h hT]
    exact execDec_consumes (s := s.withIbuf m) hr hs hc hb

end Sys2Proof.Machine
end

section
/-! SUPPORT. The round trip (43_decode.md R127): unpacking inverts packing, the pad byte ends the consumption right behind the last
symbol, and INV inverts SYM. -/

namespace Sys2Proof.Machine

/-! ### Unpacking inverts packing -/

/-- A symbol whose bits lie in the zeros of a group is 0. -/
theorem symbolOf_eq_zero {V : Group} {k : Nat} (hk : k < 8) (hV : 2 ^ (40 - 5 * k) ∣ V.toNat) : symbolOf V k = 0#5 := by
  have hexp : 40 - 5 * k = 35 - 5 * k + 5 := by omega
  apply BitVec.eq_of_toNat_eq
  rw [symbolOf_toNat]
  rw [hexp, pow_add] at hV
  exact Nat.mod_eq_zero_of_dvd (Nat.dvd_div_of_mul_dvd hV)

/-- Behind the last byte of a text the bits of its groups are 0 (R95). -/
theorem groupValue_dvd (T : Nat → Byte) (n g : Nat) : 2 ^ (40 - 8 * (n - 5 * g)) ∣ (groupValue T n g).toNat := by
  have hterm : ∀ i e, e = 32 - 8 * i → i < 5 → 2 ^ (40 - 8 * (n - 5 * g)) ∣ (groupByte T n (5 * g + i)).toNat * 2 ^ e := by
    rintro i e rfl hi
    rw [groupByte]
    split
    · exact (pow_dvd_pow 2 (by omega)).mul_left _
    · rw [BitVec.toNat_zero, Nat.zero_mul]
      exact dvd_zero _
  rw [groupValue_toNat]
  have h0 := hterm 0 32 rfl (by decide)
  have h1 := hterm 1 24 rfl (by decide)
  have h2 := hterm 2 16 rfl (by decide)
  have h3 := hterm 3 8 rfl (by decide)
  have h4 := hterm 4 0 rfl (by decide)
  rw [pow_zero, mul_one] at h4
  exact (((h0.add h1).add h2).add h3).add h4

section
variable {inv : Byte → Option Symbol} {sym : Symbol → Byte} {pad : Byte} {T : Nat → Byte} {n : Nat}

/-- The symbols of a text read back are those of its groups, the unconsumed ones 0 in both. -/
theorem symbolValue_textByte (hinv : ∀ v, inv (sym v) = some v) {g k : Nat} (hk : k < 8) :
    symbolValue inv (textByte sym pad T n) (symbolCount n) (8 * g + k) = symbolOf (groupValue T n g) k := by
  rw [symbolValue]
  split
  · rw [textByte_symbol sym pad T hk ‹_›, hinv, Option.getD_some]
  · refine (symbolOf_eq_zero hk ((pow_dvd_pow 2 ?_).trans (groupValue_dvd T n g))).symm
    have hcount : symbolCount n = 8 * (n / 5) + (8 * (n % 5) + 4) / 5 := rfl
    omega

/-- A chunk of a text is the group it was made from (R92, R112). -/
theorem chunkValue_textByte (hinv : ∀ v, inv (sym v) = some v) (g : Nat) :
    chunkValue inv (textByte sym pad T n) (symbolCount n) g = groupValue T n g := by
  have hsym k (hk : k < 8) := symbolValue_textByte (pad := pad) (T := T) (n := n) hinv (g := g) hk
  have h0 := hsym 0 (by decide)
  rw [Nat.add_zero] at h0
  rw [chunkValue, h0, hsym 1 (by decide), hsym 2 (by decide), hsym 3 (by decide), hsym 4 (by decide), hsym 5 (by decide),
    hsym 6 (by decide), hsym 7 (by decide), append_symbolOf]

theorem byteOf_groupValue {g i : Nat} (hi : i < 5) : byteOf (groupValue T n g) i = groupByte T n (5 * g + i) := by
  obtain ⟨h0, h1, h2, h3, h4⟩ := byteOf_append (groupByte T n (5 * g)) (groupByte T n (5 * g + 1)) (groupByte T n (5 * g + 2))
    (groupByte T n (5 * g + 3)) (groupByte T n (5 * g + 4))
  match i, hi with
  | 0, _ => exact h0
  | 1, _ => exact h1
  | 2, _ => exact h2
  | 3, _ => exact h3
  | 4, _ => exact h4

/-- The decoded bytes of a text are the bytes it was made from (R127). -/
theorem decodedByte_textByte (hinv : ∀ v, inv (sym v) = some v) {j : Nat} (hj : j < n) :
    decodedByte inv (textByte sym pad T n) (symbolCount n) j = T j := by
  rw [decodedByte, chunkValue_textByte hinv, byteOf_groupValue (Nat.mod_lt j (by decide)), Nat.div_add_mod, groupByte, if_pos hj]

end

/-! ### The text of ENC is consumed up to its last symbol -/

/-- No text of ENC has a length that DEC rejects (R96, R109). -/
theorem textLength_mod_eight (pe : Bool) (n : Nat) :
    textLength pe n % 8 ≠ 1 ∧ textLength pe n % 8 ≠ 3 ∧ textLength pe n % 8 ≠ 6 := by
  rw [textLength_formula]
  split_ifs <;> omega

/-- A padded text is whole groups of 8 (R100). -/
theorem textLength_padded_mod_eight (n : Nat) : textLength true n % 8 = 0 := by
  rw [textLength_formula, if_pos rfl]
  split_ifs <;> omega

/-- The tail of a text of ENC is its last group: `ns` symbols, then pad bytes in a padded configuration only, and the symbols give
the bytes of the group (R96, R110, R118). -/
theorem exists_lastGroup (pe : Bool) (n : Nat) :
    ∃ c ns tail, symbolCount n = 8 * c + ns ∧ textLength pe n = 8 * c + tail ∧ tail ≤ 8 ∧
      (textLength pe n ≠ 0 → 1 ≤ tail) ∧ ns ≤ tail ∧ (ns < tail → pe = true) ∧ (ns ≠ 1 ∧ ns ≠ 3 ∧ ns ≠ 6) ∧ 5 * c + 5 * ns / 8 = n := by
  have hcount : symbolCount n = 8 * (n / 5) + (8 * (n % 5) + 4) / 5 := rfl
  have hlen : textLength pe n = symbolCount n ∨ (pe = true ∧ n % 5 ≠ 0 ∧ textLength pe n = 8 * (n / 5) + 8) := by
    rw [textLength_formula]
    split_ifs with h0 hpe
    · exact .inl (by omega)
    · exact .inr ⟨hpe, h0, rfl⟩
    · exact .inl hcount.symm
  refine ⟨(n - 1) / 5, symbolCount n - 8 * ((n - 1) / 5), textLength pe n - 8 * ((n - 1) / 5), ?_⟩
  rcases hlen with hlen | ⟨hpe, h0, hlen⟩
  · exact ⟨by omega, by omega, by omega, by omega, by omega, fun h => absurd h (by omega), by omega, by omega⟩
  · exact ⟨by omega, by omega, by omega, by omega, by omega, fun _ => hpe, by omega, by omega⟩

/-- IBUF of `u` holds the text that ENC writes from `s`, under the same configuration (R127). -/
def holdsTextOf (u s : State) : Prop :=
  u.par = s.par ∧ u.cfg = s.cfg ∧ u.arg0 = textLength (cfgPE s.cfg) s.arg0 ∧ ∀ i, i < u.arg0 → ibufByte u i = encByte s i

section
variable {s u : State}

/-- What ENC wrote is the text, wherever it is copied to. -/
theorem holdsTextOf_of_execEnc {t : State} (ht : execEnc s = .next t) (hp : t.phase = .idle) (hpar : u.par = s.par)
    (hcfg : u.cfg = s.cfg) (harg0 : u.arg0 = t.res) (hT : ∀ i, i < t.res → ibufByte u i = obufByte t i) : holdsTextOf u s :=
  ⟨hpar, hcfg, harg0.trans (execEnc_res ht hp), fun i hi =>
    have hi := hi.trans_eq harg0
    (hT i hi).trans (execEnc_obuf ht hi)⟩

/-- Below `symbolCount` the text of ENC is symbols of the alphabet (R93). -/
theorem encByte_symbol {i : Nat} (hi : i < symbolCount s.arg0) : ∃ v, encByte s i = symEntry s.par (cfgAlpha s.cfg) v :=
  ⟨_, if_pos hi⟩

/-- No symbol is the pad byte (10_state.md R26). -/
theorem symEntry_ne_cfgPad (hwf : s.par.wf) (hcfg : cfgLegal s.par s.cfg) (hpe : cfgPE s.cfg = true) (v : Symbol) :
    symEntry s.par (cfgAlpha s.cfg) v ≠ cfgPad s.cfg := by
  intro h
  have hnone := (invLookup_isNone s.par (cfgAlpha s.cfg) (cfgPad s.cfg)).mpr (hcfg.2 hpe)
  rw [← h, invLookup_symEntry hwf] at hnone
  cases hnone

/-- The text of ENC is consumed up to its last symbol, whatever the configuration (R115). -/
theorem consumesTo_of_holdsTextOf (hwf : s.par.wf) (hcfg : cfgLegal s.par s.cfg) (h : holdsTextOf u s) :
    ∃ c ns, consumesTo u c ns ∧ symbolCount s.arg0 = 8 * c + ns ∧ (ns ≠ 1 ∧ ns ≠ 3 ∧ ns ≠ 6) ∧
      5 * c + 5 * ns / 8 = s.arg0 := by
  obtain ⟨-, hcfgu, harg0, hT⟩ := h
  obtain ⟨c, ns, tail, hcount, hlen, htail8, htail1, hle, hpe, hns, hn⟩ := exists_lastGroup (cfgPE s.cfg) s.arg0
  refine ⟨c, ns, ⟨tail, harg0.trans hlen, htail8, harg0 ▸ htail1, hle, fun k hk => ?_, fun hlt => ?_⟩, hcount, hns, hn⟩
  · rintro ⟨hpad, hbyte⟩
    obtain ⟨v, hv⟩ := encByte_symbol (s := s) (i := 8 * c + k) (by omega)
    rw [hT _ (by omega), hv, hcfgu] at hbyte
    exact symEntry_ne_cfgPad hwf hcfg (hcfgu ▸ hpad) v hbyte
  · rw [hcfgu, hT _ (by omega)]
    exact ⟨hpe hlt, textByte_pad _ _ _ hcount.le⟩

/-- Every consumed byte of the text of ENC is a symbol (10_state.md R32). -/
theorem allSymbols_of_holdsTextOf (hwf : s.par.wf) (h : holdsTextOf u s) : allSymbols u (symbolCount s.arg0) := by
  obtain ⟨hpar, hcfgu, harg0, hT⟩ := h
  intro i hi
  obtain ⟨v, hv⟩ := encByte_symbol hi
  have hlen : i < u.arg0 := by rw [harg0, textLength_eq]; omega
  rw [hT i hlen, hv, hpar, hcfgu, invLookup_symEntry hwf]
  exact Option.some_ne_none v

/-- What DEC decodes from the text of ENC is the input of ENC (R127). -/
theorem decByte_of_holdsTextOf (hwf : s.par.wf) (h : holdsTextOf u s) (hlen : decConsumed u = symbolCount s.arg0) {i : Nat}
    (hi : i < s.arg0) : decByte u i = ibufByte s i := by
  obtain ⟨hpar, hcfgu, harg0, hT⟩ := h
  have hinv : ∀ v, stateInv u (stateSym s v) = some v := fun v => by
    rw [stateInv, stateSym, hpar, hcfgu, invLookup_symEntry hwf]
  have htext : ∀ i, i < symbolCount s.arg0 → ibufByte u i = encByte s i := fun i hi =>
    hT i (by rw [harg0, textLength_eq]; omega)
  rw [decByte, hlen, decodedByte_congr _ htext]
  exact decodedByte_textByte hinv hi

end

/-- Settles O55: DEC consumes the text up to its last symbol, all its checks pass, and the bytes are `decByte_of_holdsTextOf`. -/
theorem decodeInvertsEncode : Obligations.DecodeInvertsEncode := by
  unfold Obligations.DecodeInvertsEncode
  intro s t u hwf hcfg ht hp hpar hcfgu harg0 hT hc
  have h := holdsTextOf_of_execEnc ht hp hpar hcfgu harg0 hT
  obtain ⟨c, ns, hstop, hcount, hns, hn⟩ := consumesTo_of_holdsTextOf hwf hcfg h
  have hlen : u.arg0 = textLength (cfgPE s.cfg) s.arg0 := harg0.trans (execEnc_res ht hp)
  have hdec : decCount u = s.arg0 := (decCount_eq hstop hns).trans hn
  have hfit : decCount u ≤ u.arg1 := decCount_le_arg1 hc fun hpe => by
    rw [hlen, ← hcfgu, hpe, textLength_padded_mod_eight]
  have hall : allSymbols u (8 * c + ns) := hcount ▸ allSymbols_of_holdsTextOf hwf h
  refine ⟨finishDec u, execDec_finishes hc (hlen ▸ textLength_mod_eight _ _) hstop hall hns (by omega),
    hdec ▸ finishDec_endedOk u, fun i hi => ?_⟩
  rw [obufByte_finishDec_lt (hi.trans_eq hdec.symm)]
  exact decByte_of_holdsTextOf hwf h ((decConsumed_eq hstop).trans hcount.symm) hi

end Sys2Proof.Machine
end

section
/-! SUPPORT. The life of a command (60_exceptions.md): its acceptance by phase, its run, the illegal word, HALTED until a reset, and
the table of R132, which command can end how. -/

namespace Sys2Proof.Machine

/-! ### The run of an accepted command -/

theorem runCommand_of_ok {w : Nat} {i : Instr} (h : decodePort w = .ok i) (s : State) : runCommand w s = exec i s := by
  rw [runCommand, h]

theorem runCommand_of_error {w : Nat} {e : IllegalWord} (h : decodePort w = .error e) (s : State) :
    runCommand w s = .next (s.raiseFatal .illegalCmd) := by
  rw [runCommand, h]

/-- An illegal command ends at once: no access falls inside it (30_encoding.md R66). -/
theorem commandWindow_of_error {w : Nat} {e : IllegalWord} (h : decodePort w = .error e) (window : Nat) :
    commandWindow w window = 0 := by
  rw [commandWindow, h]

/-- A table word decodes as the value the port carries of it. -/
theorem decodeTableWord_eq_some {nbits w : Nat} {i : Instr} :
    decodeTableWord nbits w = some i ↔ decodePort (w % 2 ^ nbits) = .ok i := by
  rw [decodeTableWord]
  cases decodePort (w % 2 ^ nbits) <;> simp

/-- Settles O5: a step in BUSY with no access due is `runCommand`, and a placed word leaves the block BUSY with no window. -/
theorem stepRunsDecodedCommand : Obligations.StepRunsDecodedCommand := by
  unfold Obligations.StepRunsDecodedCommand
  refine ⟨fun s w k i hp hk hi => ?_, fun s nbits w i hi => ?_⟩
  · rw [step_run hp hk, runCommand_of_ok hi]
  · have hp : (s.withFetchWord nbits w).phase = .busy (w % 2 ^ nbits) 0 := rfl
    rw [step_run hp (.inl rfl), runCommand_of_ok (decodeTableWord_eq_some.mp hi)]

/-! ### A CMD write -/

/-- Settles O6: the accepted command by `step_cmdWrite_idle`, its run by `step_run`. -/
theorem cmdWriteStartsCommand : Obligations.CmdWriteStartsCommand := by
  unfold Obligations.CmdWriteStartsCommand
  intro s ev v window rest hev hp hq
  refine ⟨_, _, step_cmdWrite_idle hev hp hq, commandWindow_le _ _, rfl, rfl, rfl, rfl, rfl, rfl, rfl, rfl, rfl, rfl, rfl, rfl,
    rfl, rfl, fun hk => ⟨fun i hi => ?_, fun e he => ?_⟩⟩
  · exact (step_run rfl hk).trans (runCommand_of_ok hi _)
  · exact ⟨_, (step_run rfl hk).trans (runCommand_of_error he _), (endedFatal_raiseFatal _ _ _).mpr rfl⟩

/-- Settles O7: a value that matches no row does not decode, so it is accepted with no window and the next step halts the block. -/
theorem illegalCommandHalts : Obligations.IllegalCommandHalts := by
  unfold Obligations.IllegalCommandHalts
  intro s ev v window rest hev hp hq hrow
  obtain ⟨hillegal, -⟩ := illegalWordsMatchNoRow
  obtain ⟨e, he⟩ := (hillegal _).mpr hrow
  have hwindow := commandWindow_of_error he window
  exact ⟨_, _, step_cmdWrite_idle hev hp hq, (step_run rfl (.inl hwindow)).trans (runCommand_of_error he _),
    (endedFatal_raiseFatal _ _ _).mpr rfl, rfl, rfl, rfl, rfl, rfl, rfl, rfl⟩

/-- A CMD write while BUSY is an access with no move (70_reset_and_hazards.md R159; log 5). -/
theorem busyEvent_cmdWrite {ev : PortEvent} {v window : Nat} (h : isCmdWrite ev v window) (s : State) :
    s.busyEvent ev = .fault .accessWhileBusy := by
  rcases h with rfl | ⟨rfl, -⟩
  · rfl
  · rfl

/-- Settles O8, phase by phase. -/
theorem cmdWriteByPhase : Obligations.CmdWriteByPhase := by
  unfold Obligations.CmdWriteByPhase
  intro s ev v window rest hev hq
  refine ⟨fun hp => ⟨_, _, step_cmdWrite_idle hev hp hq, rfl⟩, fun c hp => step_cmdWrite_halted hev hp hq, fun w k hp => ?_⟩
  rw [step_busy hp hq, busyEvent_cmdWrite hev]

/-! ### HALTED -/

/-- A CMD write in HALTED is discarded (R133). -/
theorem State.writeCmd_halted {s : State} {c : FCause} (hp : s.phase = .halted c) (v window : Nat) : s.writeCmd v window = s := by
  rw [State.writeCmd, hp]

theorem State.writeReg_halted_phase {s : State} {c : FCause} (hp : s.phase = .halted c) (index v : Nat) :
    (s.writeReg index v).phase = .halted c := by
  simp only [State.writeReg]
  split
  · rwa [State.writeCmd_halted hp]
  · exact hp
  · exact hp
  · exact hp

/-- In HALTED every port event but a reset keeps the phase, and the cause with it (R139, 70_reset_and_hazards.md R151). -/
theorem State.portEvent_halted_phase {s : State} {c : FCause} {ev : PortEvent} (hp : s.phase = .halted c) (hev : ev ≠ .reset) :
    (s.portEvent ev).phase = .halted c := by
  cases ev with
  | command v window => exact (congrArg State.phase (State.writeCmd_halted hp v window)).trans hp
  | writeReg index v => exact State.writeReg_halted_phase hp index v
  | writeIbuf i b => simp only [State.portEvent, State.writeIbufByte]; split <;> exact hp
  | writeObuf j b => simp only [State.portEvent, State.writeObufByte]; split <;> exact hp
  | readReg | readIbuf | readObuf => exact hp
  | reset => exact absurd rfl hev

/-- Settles O9: a step in HALTED does nothing, or takes a port event. -/
theorem haltedUntilReset : Obligations.HaltedUntilReset := by
  unfold Obligations.HaltedUntilReset
  intro s t c hp h
  rcases step_cases h with ⟨-, -, rfl⟩ | ⟨ev, rest, -, hq, rfl⟩ | ⟨w, k, hbusy, -⟩ | ⟨w, k, _, _, hbusy, -⟩
  · exact .inl hp
  · by_cases hev : ev = .reset
    · subst hev
      exact .inr ⟨by rw [hq]; rfl, rfl⟩
    · exact .inl (State.portEvent_halted_phase hp hev)
  · cases hp.symm.trans hbusy
  · cases hp.symm.trans hbusy

/-! ### The table of R132 -/

/-- The causes a command can halt the block with: its row of the table (R132). -/
def haltCauses (pe : Bool) : Instr → List FCause
  | .ldcfg _ => []
  | .clrpad => []
  | .setpad _ => [.config]
  | .encsz => [.overflow]
  | .decsz => if pe then [] else [.overflow]
  | .enc => [.overflow, .outTooSmall, .bufRange]
  | .padd => [.outTooSmall, .bufRange]
  | .dec => [.outTooSmall, .bufRange, if pe then .outOverrun else .overflow]

/-- The columns of the table (R132). -/
theorem haltCauses_columns (pe : Bool) (i : Instr) :
    (.overflow ∈ haltCauses pe i → i = .encsz ∨ i = .enc ∨ ((i = .decsz ∨ i = .dec) ∧ pe = false)) ∧
    (.outTooSmall ∈ haltCauses pe i → i = .enc ∨ i = .padd ∨ i = .dec) ∧
    (.outOverrun ∈ haltCauses pe i → i = .dec ∧ pe = true) ∧
    (.config ∈ haltCauses pe i → ∃ b, i = .setpad b) ∧
    (.bufRange ∈ haltCauses pe i → i = .enc ∨ i = .padd ∨ i = .dec) ∧
    .illegalCmd ∉ haltCauses pe i := by
  cases i <;> cases pe <;> simp [haltCauses]

/-- An end `t` of command `i` that the table allows: an error for DEC only, a fault of the command's row. -/
def allowedEnd (pe : Bool) (i : Instr) (t : State) : Prop :=
  (t.code ≠ .ok → i = .dec) ∧ ∀ c, t.phase = .halted c → c ∈ haltCauses pe i

section
variable {pe : Bool} {i : Instr}

theorem allowedEnd_of_endedOk {t : State} {v : Nat} (h : endedOk t v) : allowedEnd pe i t := by
  obtain ⟨hphase, hcode, -⟩ := h
  exact ⟨fun hc => absurd hcode hc, fun c hp => by cases hphase.symm.trans hp⟩

theorem allowedEnd_done (s : State) (v : Nat) : allowedEnd pe i (s.done v) :=
  allowedEnd_of_endedOk ((endedOk_done s v v).mpr rfl)

theorem allowedEnd_raiseError (s : State) (c : Code) (pos : Nat) (b : Byte) : allowedEnd pe .dec (s.raiseError c pos b) :=
  ⟨fun _ => rfl, nofun⟩

theorem allowedEnd_raiseFatal {c : FCause} (hc : c ∈ haltCauses pe i) (s : State) : allowedEnd pe i (s.raiseFatal c) := by
  refine ⟨fun h => absurd rfl h, fun d hp => ?_⟩
  obtain rfl := Phase.halted.inj hp
  exact hc

end

section
variable {s t : State}

theorem allowedEnd_finishSize {pe : Bool} {i : Instr} {r : Option Nat} (hr : r = none → .overflow ∈ haltCauses pe i) :
    allowedEnd pe i (finishSize r s) := by
  rcases finishSize_cases r s with ⟨hnone, e⟩ | ⟨v, -, e⟩ <;> rw [e]
  · exact allowedEnd_raiseFatal (hr hnone) s
  · exact allowedEnd_done s v

/-- `decoded_size` of ARG0 overflows in an unpadded configuration only (41_size.md R82). -/
theorem unpadded_of_stateDecodedSize_eq_none (harg0 : s.arg0 < 2 ^ s.par.lenW) (h : stateDecodedSize s = none) :
    cfgPE s.cfg = false := by
  refine Bool.of_not_eq_true fun hpe => ?_
  rw [stateDecodedSize, hpe, decodedSize_padded_of_lt harg0] at h
  cases h

/-- Where `decoded_size` fits ARG1, the bytes outrun it in a padded configuration only (43_decode.md R124). -/
theorem padded_of_arg1_lt_decCount (hc : decContract s) (h : s.arg1 < decCount s) : cfgPE s.cfg = true := by
  refine Bool.of_not_eq_false fun hpe => Nat.not_le.mpr h (decCount_le_arg1 hc fun hpe' => ?_)
  cases hpe.symm.trans hpe'

theorem execEnc_allowedEnd {pe : Bool} (h : execEnc s = .next t) : allowedEnd pe .enc t := by
  rcases execEnc_cases h with ⟨-, rfl⟩ | ⟨-, -, rfl⟩ | ⟨_, -, -, -, rfl⟩ | ⟨_, -, -, -, rfl⟩
  · exact allowedEnd_raiseFatal (by simp [haltCauses]) s
  · exact allowedEnd_raiseFatal (by simp [haltCauses]) s
  · exact allowedEnd_raiseFatal (by simp [haltCauses]) s
  · exact allowedEnd_done _ _

theorem execPadd_allowedEnd {pe : Bool} (h : execPadd s = .next t) : allowedEnd pe .padd t := by
  rcases execPadd_cases h with ⟨-, rfl⟩ | ⟨-, -, rfl⟩ | ⟨-, -, -, rfl⟩ | ⟨-, -, -, rfl⟩
  · exact allowedEnd_raiseFatal (by simp [haltCauses]) s
  · exact allowedEnd_done _ _
  · exact allowedEnd_raiseFatal (by simp [haltCauses]) s
  · exact allowedEnd_done _ _

theorem consumeText_allowedEnd (hc : decContract s) : allowedEnd (cfgPE s.cfg) .dec (consumeText s) := by
  rcases consumeText_cases s with ⟨pos, -, e⟩ | ⟨-, -, e⟩ | ⟨-, -, hlt, e⟩ | ⟨-, -, -, e⟩ <;> rw [e]
  · exact allowedEnd_raiseError _ _ _ _
  · exact allowedEnd_raiseError _ _ _ _
  · exact allowedEnd_raiseFatal (by simp [haltCauses, padded_of_arg1_lt_decCount hc hlt]) _
  · exact allowedEnd_of_endedOk (finishDec_endedOk s)

theorem execDec_allowedEnd (harg0 : s.arg0 < 2 ^ s.par.lenW) (h : execDec s = .next t) : allowedEnd (cfgPE s.cfg) .dec t := by
  rcases execDec_cases h with ⟨-, rfl⟩ | ⟨-, hs, rfl⟩ | ⟨_, -, -, -, rfl⟩ | ⟨_, -, -, -, -, rfl⟩ | ⟨size, hr, hs, hle, -, rfl⟩
  · exact allowedEnd_raiseFatal (by simp [haltCauses]) s
  · exact allowedEnd_raiseFatal (by simp [haltCauses, unpadded_of_stateDecodedSize_eq_none harg0 hs]) s
  · exact allowedEnd_raiseFatal (by simp [haltCauses]) s
  · exact allowedEnd_raiseError s _ _ _
  · exact consumeText_allowedEnd ((decContract_iff s).mpr ⟨hr, size, hs, hle⟩)

/-- Every command ends as its row of the table allows (R132). -/
theorem exec_allowedEnd {i : Instr} (harg0 : s.arg0 < 2 ^ s.par.lenW) (h : exec i s = .next t) :
    allowedEnd (cfgPE s.cfg) i t := by
  cases i with
  | ldcfg imm => cases h; exact allowedEnd_done _ _
  | clrpad => cases h; exact allowedEnd_done _ _
  | setpad b =>
    rcases execSetpad_cases h with ⟨-, rfl⟩ | ⟨-, rfl⟩
    · exact allowedEnd_raiseFatal (by simp [haltCauses]) s
    · exact allowedEnd_done _ _
  | encsz => cases h; exact allowedEnd_finishSize fun _ => by simp [haltCauses]
  | decsz =>
    cases h
    exact allowedEnd_finishSize fun hnone => by simp [haltCauses, unpadded_of_stateDecodedSize_eq_none harg0 hnone]
  | enc => exact execEnc_allowedEnd h
  | padd => exact execPadd_allowedEnd h
  | dec => exact execDec_allowedEnd harg0 h

end

/-- Settles O53: every command ends as its row allows, and the table is then read by column. -/
theorem commandEndings : Obligations.CommandEndings := by
  unfold Obligations.CommandEndings
  intro i s t harg0 h
  obtain ⟨hcode, hhalt⟩ := exec_allowedEnd harg0 h
  obtain ⟨hoverflow, htooSmall, hoverrun, hconfig, hrange, hillegal⟩ := haltCauses_columns (cfgPE s.cfg) i
  exact ⟨exec_notBusy h, hcode, fun hp => hoverflow (hhalt _ hp), fun hp => htooSmall (hhalt _ hp),
    fun hp => hoverrun (hhalt _ hp), fun hp => hconfig (hhalt _ hp), fun hp => hrange (hhalt _ hp),
    fun hp => hillegal (hhalt _ hp)⟩

end Sys2Proof.Machine
end

section
/-! SUPPORT. The block while BUSY (70_reset_and_hazards.md): the accesses that arrive in the window of a command, R159 and R166, and
the end of every accepted command, R165. -/

namespace Sys2Proof.Machine

/-! ### An access in the window -/

/-- Whatever the free bits, the low two of a STATUS value read while BUSY are BUSY = 1 and FATAL = 0. -/
theorem busyStatusWord_mod_four (s : State) : (busyStatusWord s).toNat % 4 = 1 := by
  rw [busyStatusWord, BitVec.toNat_append, ← Nat.shiftLeft_add_eq_or_of_lt (BitVec.isLt _), Nat.shiftLeft_eq,
    Nat.mul_add_mod_self_right]
  rfl

/-- A STATUS read that is due in the window takes one event of it and answers `busyStatusWord`. -/
theorem step_busy_statusRead {s : State} {w k : Nat} {rest : List PortEvent} (hp : s.phase = .busy w (k + 1))
    (hq : s.port = .readReg 1 :: rest) :
    step s = .next (State.busyStatusRead { s with phase := .busy w k, port := rest }) :=
  step_busy hp hq

/-- Settles O12: the step is `busyStatusRead`, whose answer is a byte with the two fixed bits. -/
theorem statusReadWhileBusy : Obligations.StatusReadWhileBusy := by
  unfold Obligations.StatusReadWhileBusy
  intro s w k rest hp hq
  exact ⟨_, (busyStatusWord s).isLt, busyStatusWord_mod_four s, step_busy_statusRead hp hq⟩

/-- While BUSY the spec has no move for an access that is neither a STATUS read nor a reset (R159, R166; log 5). -/
theorem busyEvent_fault {ev : PortEvent} (hstatus : ev ≠ .readReg 1) (hreset : ev ≠ .reset) (s : State) :
    s.busyEvent ev = .fault .accessWhileBusy := by
  cases ev with
  | readReg index => exact if_neg fun h => hstatus (congrArg PortEvent.readReg h)
  | reset => exact absurd rfl hreset
  | command | writeReg | writeIbuf | readIbuf | writeObuf | readObuf => rfl

/-- Settles O13: the step takes the access as `busyEvent`, which has no move for it. -/
theorem otherAccessWhileBusyStops : Obligations.OtherAccessWhileBusyStops := by
  unfold Obligations.OtherAccessWhileBusyStops
  intro s w k ev rest hp hq hstatus hreset
  rw [step_busy hp hq, busyEvent_fault hstatus hreset]

/-! ### The end of a command -/

theorem run_succ_of_step {M : Host.Core} {s t : M.State} (h : M.step s = .next t) (n : Nat) : M.run (n + 1) s = M.run n t := by
  rw [Host.Core.run, h]

/-- A command that has run leaves BUSY, the illegal word too (60_exceptions.md R134, R142). -/
theorem runCommand_notBusy {w : Nat} {s t : State} (h : runCommand w s = .next t) (w' k : Nat) : t.phase ≠ .busy w' k := by
  rcases runCommand_cases h with ⟨i, -, he⟩ | ⟨e, -, rfl⟩
  · exact exec_notBusy he w' k
  · exact nofun

/-- With no access due in the window, one step ends the command. -/
theorem step_run_ends {s : State} {w k : Nat} (hp : s.phase = .busy w k) (h : k = 0 ∨ s.port = []) :
    ∃ t, core.run 1 s = .next t ∧ ∀ w' k', t.phase ≠ .busy w' k' := by
  obtain ⟨t, ht⟩ := runCommand_next w s
  exact ⟨t, run_succ_of_step (M := core) ((step_run hp h).trans ht) 0, runCommand_notBusy ht⟩

/-- Settles O17, by induction on the window: each STATUS read takes one event of it, and with none due the command ends. -/
theorem everyAcceptedCommandEnds : Obligations.EveryAcceptedCommandEnds := by
  unfold Obligations.EveryAcceptedCommandEnds
  intro s w k hp hreads
  induction k generalizing s with
  | zero =>
    obtain ⟨t, hrun, hend⟩ := step_run_ends hp (.inl rfl)
    exact ⟨1, t, le_rfl, hrun, hend⟩
  | succ k ih =>
    cases hq : s.port with
    | nil =>
      obtain ⟨t, hrun, hend⟩ := step_run_ends hp (.inr hq)
      exact ⟨1, t, by omega, hrun, hend⟩
    | cons ev rest =>
      rw [hq, List.take_succ_cons, List.forall_mem_cons] at hreads
      obtain ⟨rfl, hrest⟩ := hreads
      obtain ⟨n, t, hn, hrun, hend⟩ := ih (State.busyStatusRead { s with phase := .busy w k, port := rest }) rfl hrest
      exact ⟨n + 1, t, by omega, (run_succ_of_step (M := core) (step_busy_statusRead hp hq) n).trans hrun, hend⟩

end Sys2Proof.Machine
end
